-- ==== Sys2Proof/Word.lean ====
section
/-! DEFINITION. The bit-vector types of the block: a byte, the 16-bit offset field, the 32-bit word of the host port the
13-bit offset into the register window, and a row of byte slots (10_state.md R21 to R27, 20_memory.md R51 and R55). -/

namespace Sys2Proof

/-- An 8-bit field, data slot or character slot (10_state.md R21, R25, R26). -/
abbrev Byte := BitVec 8

/-- The 16-bit `REC_OFFSET` field (10_state.md R22). -/
abbrev Half := BitVec 16

/-- The 32-bit value of one host transaction (20_memory.md R55). -/
abbrev Word := BitVec 32

/-- A byte offset into the register window: 13 bits, so never outside it (20_memory.md R51). -/
abbrev Offset := BitVec 13

/-- A row of exactly `n` byte slots, as `DATA` and `TEXT` are (10_state.md R25, R26): the bytes from slot 0 on, with their number.
Kept as a list so that two states compare fast (log entry 4). -/
structure Slots (n : Nat) where
  bytes : List Byte
  size  : bytes.length = n
deriving DecidableEq, Repr

/-- Every slot holds `b`. -/
def Slots.fill (n : Nat) (b : Byte) : Slots n := ⟨List.replicate n b, List.length_replicate⟩

/-- Slot `k` holds `f k`. -/
def Slots.tabulate (n : Nat) (f : Nat → Byte) : Slots n := ⟨(List.range n).map f, by simp⟩

end Sys2Proof
end

