-- ==== Sys2Proof/Config.lean ====
section
/-! DEFINITION. What is fixed for the block (00_scope.md R8 to R14), the parameters the spec leaves OPEN (20_memory.md R50,
R72), and the free values behind the reset values the spec leaves unspecified (10_state.md R37). -/

namespace Sys2Proof

/-- `DATA_CAP`, the number of data slots (00_scope.md R8). -/
abbrev Config.dataCap : Nat := 255

/-- `LINE_LEN(LL)`, the characters of a record line of `ll` data bytes with its CR LF (00_scope.md R11). -/
abbrev Config.lineLen (ll : Nat) : Nat := 13 + 2 * ll

/-- `TEXT_CAP`, the number of character slots (00_scope.md R12). -/
abbrev Config.textCap : Nat := 523

/-- The size of the register window in bytes (00_scope.md R13). -/
abbrev Config.windowSize : Nat := 0x2000

/-- `ACCEPT_LOWERCASE`, fixed at true (00_scope.md R14). -/
abbrev Config.acceptLowercase : Bool := true

/-- The platform's parameters, arguments of the model: `IHX_BASE`, one for each instance of the block (20_memory.md R50,
60_exceptions.md R195), and `HOST_ORDERED_PORT` (20_memory.md R72). -/
structure Config.Platform where
  ihxBases        : List Nat
  hostOrderedPort : Bool
deriving DecidableEq, Repr

/-! The free values: what each unspecified item of block `b` holds after that block's `n`-th reset event (10_state.md R37 and
93_implementation_defined.md U1: "a draw taken once at reset and stable until written"; log entry 2). The block's number on
its platform is a key of every draw, so nothing relates what two instances hold (60_exceptions.md R195). None has a body, so
no proof can see a value. -/

/-- `REC_LEN` of block `b` after its reset event `n`. -/
opaque Config.freeRecLen (b n : Nat) : Byte
/-- `REC_OFFSET` of block `b` after its reset event `n`. -/
opaque Config.freeRecOffset (b n : Nat) : Half
/-- `REC_TYPE` of block `b` after its reset event `n`. -/
opaque Config.freeRecType (b n : Nat) : Byte
/-- `REC_CSUM` of block `b` after its reset event `n`. -/
opaque Config.freeRecCsum (b n : Nat) : Byte
/-- `DATA[k]` of block `b` after its reset event `n`, each slot independently. -/
opaque Config.freeData (b n k : Nat) : Byte
/-- `TEXT[j]` of block `b` after its reset event `n`, each slot independently. -/
opaque Config.freeText (b n j : Nat) : Byte
/-- `TLEN` of block `b` after its reset event `n`. -/
opaque Config.freeTlen (b n : Nat) : BitVec 10

end Sys2Proof
end

