-- ==== Sys2Proof/Syntax.lean ====
section
/-! DEFINITION. The syntax: the four commands (30_encoding.md R81), the names of the register window (20_memory.md R52), and
the events of the block's port (20_memory.md R55, R56; 70_reset_and_hazards.md R210). -/

namespace Sys2Proof

/-- The commands, one constructor a row of the opcode table; every operand is implicit (30_encoding.md R80, R81, R84). -/
inductive Instr where
  /-- `CSUM_CALC` (40_checksum.md R125). -/
  | csumCalc
  /-- `CSUM_CHECK` (40_checksum.md R126). -/
  | csumCheck
  /-- `ENCODE` (41_transcoder.md R140). -/
  | encode
  /-- `DECODE` (41_transcoder.md R144). -/
  | decode
deriving DecidableEq, Repr

/-- The registers and slots of the window (20_memory.md R52). -/
inductive WindowReg where
  | cmd
  | status
  | errpos
  | csumResult
  | recLen
  | recOffset
  | recType
  | recCsum
  | tlen
  | data (k : Fin Config.dataCap)
  | text (j : Fin Config.textCap)
deriving DecidableEq, Repr

/-- The widths in bytes a host may attempt; only `four` is legal (20_memory.md R56). -/
inductive AccessWidth where
  | one
  | two
  | four
  | eight
deriving DecidableEq, Repr

/-- What can happen at the port: a host read, a host write (20_memory.md R55), or the platform's reset between two
transactions (70_reset_and_hazards.md R210). A write of another width than `four` has no effect whatever its data
(R56), so 32 bits of data are enough (log entry 5). -/
inductive PortEvent where
  | memRead (a : Offset) (w : AccessWidth)
  | memWrite (a : Offset) (w : AccessWidth) (v : Word)
  | reset
deriving DecidableEq, Repr

/-- What the port answers: nothing yet, a write accepted (20_memory.md R58), or the value of a read (R55). -/
inductive PortResponse where
  | none
  | writeDone
  | readData (v : Word)
deriving DecidableEq, Repr

end Sys2Proof
end

