-- ==== Sys2Proof/WellFormed.lean ====
section
/-! DEFINITION. Which terms are well formed: every command (it has no operand that could be ill formed, 30_encoding.md R80),
and the port events the block completes without a bus error, written from the ranges of 20_memory.md R52 and the rule R56
and independently of the address decoder of Machine/Ops.lean. -/

namespace Sys2Proof

/-- A command word has no register, immediate or mode field (30_encoding.md R80), so there is nothing to check. -/
def Instr.wellFormed : Instr → Bool
  | .csumCalc  => true
  | .csumCheck => true
  | .encode    => true
  | .decode    => true

/-- The width check of 20_memory.md R56. -/
def AccessWidth.legal : AccessWidth → Bool
  | .one   => false
  | .two   => false
  | .four  => true
  | .eight => false

/-- The alignment check of 20_memory.md R56. -/
def Offset.aligned (a : Offset) : Bool := a.toNat % 4 == 0

/-- The offset is in no range that 20_memory.md R52 marks reserved: `0x024`–`0x3FF`, `0x7FC`–`0x7FF`, `0x102C`–`0x1FFF`. -/
def Offset.notReserved (a : Offset) : Bool :=
  !(decide (0x024 ≤ a.toNat ∧ a.toNat ≤ 0x3FF)) && !(decide (0x7FC ≤ a.toNat ∧ a.toNat ≤ 0x7FF))
    && !(decide (0x102C ≤ a.toNat ∧ a.toNat ≤ 0x1FFF))

/-- A legal access: the three checks together (20_memory.md R56, R57). -/
def legalAccess (a : Offset) (w : AccessWidth) : Bool := w.legal && Offset.aligned a && Offset.notReserved a

/-- The events that raise no bus error. -/
def PortEvent.wellFormed : PortEvent → Bool
  | .memRead a w    => legalAccess a w
  | .memWrite a w _ => legalAccess a w
  | .reset          => true

end Sys2Proof
end

