-- ==== Sys2Proof/Decode.lean ====
section
/-! DEFINITION. The command-word decoder, total on all 2^32 words and rejecting by name (30_encoding.md R80 to R83), and the
encoder. -/

namespace Sys2Proof

/-- Why a command word is illegal (30_encoding.md R82). Both reasons have the one outcome of 60_exceptions.md R187. -/
inductive IllegalWord where
  /-- `RSVD ≠ 0`, whatever `OP`. -/
  | reservedBits
  /-- `RSVD = 0` and `OP` is `0x0` or `0x5`–`0xF`. -/
  | unassignedOp
deriving DecidableEq, Repr

/-- The field `OP`, bits [3:0] (30_encoding.md R80). -/
def opField (v : Word) : BitVec 4 := v.extractLsb' 0 4

/-- The field `RSVD`, bits [31:4] (30_encoding.md R80). -/
def rsvdField (v : Word) : BitVec 28 := v.extractLsb' 4 28

/-- The opcode map by `OP` (30_encoding.md R81). -/
def instrOfOp (op : BitVec 4) : Option Instr :=
  match op.toNat with
  | 1 => some .csumCalc
  | 2 => some .csumCheck
  | 3 => some .encode
  | 4 => some .decode
  | _ => none

/-- The decoder (30_encoding.md R81 to R83): a word with `RSVD = 0` is selected by `OP`; all the rest are illegal. -/
def decodeWord (v : Word) : Except IllegalWord Instr :=
  if rsvdField v = 0 then
    match instrOfOp (opField v) with
    | some i => .ok i
    | none   => .error .unassignedOp
  else .error .reservedBits

/-- The command word of each command (30_encoding.md R81, column "command word"). -/
def encode : Instr → Word
  | .csumCalc  => 0x00000001
  | .csumCheck => 0x00000002
  | .encode    => 0x00000003
  | .decode    => 0x00000004

/-- The 32-bit word the opcode table's numbering gives: bit 0 is the least significant, bits from `nbits` on are 0. The port
carries whole 32-bit values, so there is no byte order (20_memory.md R63). -/
def tableWord (nbits w : Nat) : Word := BitVec.ofNat 32 (w % 2 ^ nbits)

/-- What the decoder reads from the word of an opcode-table row. -/
def decodeTableWord (nbits w : Nat) : Option Instr :=
  match decodeWord (tableWord nbits w) with
  | .ok i    => some i
  | .error _ => none

end Sys2Proof
end

