-- ==== Sys2Proof/Machine/State.lean ====
section
/-! DEFINITION. The state as plain data: every register and slot of 10_state.md R20 to R33, the model's own port (log entry
3), the reset state of R37, and the reasons a step can stop. -/

namespace Sys2Proof.Machine

/-- The record register set (10_state.md R20 to R25). -/
structure Record where
  /-- `REC_LEN` (R21). -/
  len    : Byte
  /-- `REC_OFFSET` (R22). -/
  offset : Half
  /-- `REC_TYPE` (R23). -/
  type   : Byte
  /-- `REC_CSUM` (R24). -/
  csum   : Byte
  /-- `DATA[0..254]` (R25). -/
  data   : Slots Config.dataCap
deriving DecidableEq, Repr

/-- The fields of `STATUS` (10_state.md R29); its reserved bits are never written and read 0, so they are not stored. -/
structure Status where
  /-- `ERR`, bits [3:0]. -/
  err   : BitVec 4
  /-- `CKOK`, bit [8]. -/
  ckok  : Bool
  /-- `ESTKY`, bit [9]. -/
  estky : Bool
deriving DecidableEq, Repr

/-- The model's own port fields (log entries 2 and 3): what is still to arrive, oldest first; the answer to the last
transaction; the number of this block among the platform's instances, which no step changes; how many reset events this
block had. -/
structure Port where
  pending  : List PortEvent
  response : PortResponse
  block    : Nat
  resets   : Nat
deriving DecidableEq, Repr

/-- Everything the spec gives the block (10_state.md R20 to R33), and the port. -/
structure State where
  record     : Record
  /-- `TEXT[0..522]` (R26). -/
  text       : Slots Config.textCap
  /-- `TLEN` (R27). -/
  tlen       : BitVec 10
  /-- `CSUM_RESULT` (R28). -/
  csumResult : Byte
  status     : Status
  /-- `ERRPOS` (R33). -/
  errpos     : BitVec 10
  port       : Port
deriving DecidableEq, Repr

/-- The codes of `STATUS.ERR` (60_exceptions.md R180). -/
inductive ErrCode where
  | ok
  | illegalCmd
  | badMark
  | badDigit
  | truncated
  | badTlen
deriving DecidableEq, Repr

/-- `raise DecodeError(code, pos)` (00_scope.md R16): the error and the character position that ends a `DECODE`. -/
structure DecodeError where
  code : ErrCode
  pos  : Nat
deriving DecidableEq, Repr

/-- What `DECODE` holds before its commit (10_state.md R35, 41_transcoder.md R144): a value inside one step, no state. -/
structure ParsedRecord where
  len    : Byte
  offset : Half
  type   : Byte
  data   : List Byte
  csum   : Byte
deriving DecidableEq, Repr

/-- The items whose value after reset the spec leaves unspecified (10_state.md R37). -/
structure ResetDraw where
  record : Record
  text   : Slots Config.textCap
  tlen   : BitVec 10
deriving DecidableEq, Repr

/-- Why the machine stops. -/
inductive Fault where
  /-- The bus error of 20_memory.md R57, raised by a host access that is not 4 bytes wide, not aligned, or to a reserved
  offset. Safe: R199 has the model fault, and no state is claimed after it (log entry 5). -/
  | busError (a : Offset)
deriving DecidableEq, Repr

/-- Why an instruction has no meaning. -/
inductive Refusal where
  /-- Raised by an arm of `exec` whose command has no meaning yet: none in this model. Safe. -/
  | notModelled (mnemonic : String)
deriving DecidableEq, Repr

/-- The state after a reset whose unspecified items took the draw `d`: `STATUS`, `ERRPOS` and `CSUM_RESULT` are 0, the rest
is the draw (10_state.md R37, 70_reset_and_hazards.md R210). -/
def State.resetTo (d : ResetDraw) (p : Port) : State where
  record     := d.record
  text       := d.text
  tlen       := d.tlen
  csumResult := 0
  status     := { err := 0, ckok := false, estky := false }
  errpos     := 0
  port       := p

/-- DESIGN CHOICE (log entry 1): the draw that `State.reset` names. The spec gives none and says a model must not pick zero
(93_implementation_defined.md U1); these are the fills that its own test vectors start from (95_test_vectors.md 2.3, 2.4). -/
def ResetDraw.named : ResetDraw where
  record := { len := 0x11, offset := 0x0011, type := 0x11, csum := 0x11, data := .fill _ 0x11 }
  text   := .fill _ 0x5A
  tlen   := 0x011

/-- One block, numbered 0, right after reset with nothing at its port yet (10_state.md R37; 70_reset_and_hazards.md R211). A
platform of several blocks starts from `Platform.powerOn`, whose draws are free (log entries 1 and 2). -/
def State.reset : State := State.resetTo ResetDraw.named { pending := [], response := .none, block := 0, resets := 0 }

/-- The free draw of block `b` at its reset event `n` (93_implementation_defined.md U1). DESIGN CHOICE (log entry 2): the spec
relates the draws of two instances nowhere (10_state.md R37, 60_exceptions.md R195), and with the block's number as a key of
every draw the model relates them nowhere either. -/
def ResetDraw.free (b n : Nat) : ResetDraw where
  record := { len := Config.freeRecLen b n, offset := Config.freeRecOffset b n, type := Config.freeRecType b n,
              csum := Config.freeRecCsum b n, data := .tabulate _ (Config.freeData b n) }
  text   := .tabulate _ (Config.freeText b n)
  tlen   := Config.freeTlen b n

end Sys2Proof.Machine
end

