-- ==== Sys2Proof/Machine/Flags.lean ====
section
/-! DEFINITION. The error codes and the `STATUS` register: its 32-bit view and the writes of its fields (10_state.md R29,
R34; 60_exceptions.md R180). -/

namespace Sys2Proof.Machine

/-- The numeric value of an error code (60_exceptions.md R180). -/
def ErrCode.value : ErrCode → BitVec 4
  | .ok         => 0
  | .illegalCmd => 1
  | .badMark    => 2
  | .badDigit   => 3
  | .truncated  => 4
  | .badTlen    => 5

/-- `STATUS` as the host reads it: `ERR` in [3:0], `CKOK` in [8], `ESTKY` in [9], the reserved bits 0 (10_state.md R29,
20_memory.md R60). -/
def Status.toWord (st : Status) : Word :=
  BitVec.ofNat 32 (st.err.toNat + (if st.ckok then 2 ^ 8 else 0) + (if st.estky then 2 ^ 9 else 0))

/-- `STATUS.ERR <- 0`, the end of every legal command that completes (60_exceptions.md R183). -/
def Status.setOk (st : Status) : Status := { st with err := ErrCode.ok.value }

/-- `STATUS.ERR <- code` and `STATUS.ESTKY <- 1` (60_exceptions.md R186). -/
def Status.fail (code : ErrCode) (st : Status) : Status := { st with err := code.value, estky := true }

/-- `STATUS.CKOK <- b` (40_checksum.md R126). -/
def Status.setCkok (b : Bool) (st : Status) : Status := { st with ckok := b }

end Sys2Proof.Machine
end

