-- ==== Sys2Proof/Machine/Operands.lean ====
section
/-! DEFINITION. How a command assembles its implicit operands (30_encoding.md R84): the record's data bytes, the valid
characters of the line buffer, and the text primitives of R91 to R94 with the character codes of R93. -/

namespace Sys2Proof

/-- `DATA[k]` or `TEXT[j]`, by slot number (00_scope.md R16). -/
def Slots.get {n : Nat} (slots : Slots n) (k : Fin n) : Byte := slots.bytes[k.val]'(by rw [slots.size]; exact k.isLt)

/-- `DATA[k] <- b` or `TEXT[j] <- b` (00_scope.md R16). -/
def Slots.set {n : Nat} (slots : Slots n) (k : Fin n) (b : Byte) : Slots n :=
  ⟨slots.bytes.set k.val b, by rw [List.length_set, slots.size]⟩

end Sys2Proof

namespace Sys2Proof.Machine

/-- `DATA[0], …, DATA[REC_LEN-1]`, the record's data (10_state.md R25). -/
def Record.dataBytes (r : Record) : List Byte := r.data.bytes.take r.len.toNat

/-- The "offset high" byte, bits [15:8] (10_state.md R22, 20_memory.md R63). -/
def offsetHigh (o : Half) : Byte := o.extractLsb' 8 8

/-- The "offset low" byte, bits [7:0] (10_state.md R22, 20_memory.md R63). -/
def offsetLow (o : Half) : Byte := o.extractLsb' 0 8

/-- The valid characters `TEXT[0..TLEN-1]` of the line buffer (10_state.md R26, R27). -/
def State.line (s : State) : List Byte := s.text.bytes.take s.tlen.toNat

/-- `':'` (30_encoding.md R93; log entry 10). -/
abbrev codeColon : Byte := 0x3A
/-- CR (30_encoding.md R93; log entry 10). -/
abbrev codeCR : Byte := 0x0D
/-- LF (30_encoding.md R93; log entry 10). -/
abbrev codeLF : Byte := 0x0A

/-- `v[7:4]` (30_encoding.md R91). -/
def highNibble (v : Byte) : BitVec 4 := v.extractLsb' 4 4

/-- `v[3:0]` (30_encoding.md R91). -/
def lowNibble (v : Byte) : BitVec 4 := v.extractLsb' 0 4

/-- The code of `hexchar(n)`: `'0'+n` for `n ≤ 9`, `'A'+(n-10)` from 10 on (30_encoding.md R91, R93). -/
def hexchar (n : BitVec 4) : Byte :=
  if n.toNat ≤ 9 then BitVec.ofNat 8 (0x30 + n.toNat) else BitVec.ofNat 8 (0x41 + (n.toNat - 10))

/-- `hex2(v)`: the high nibble's digit first (30_encoding.md R91, R92). -/
def hex2 (v : Byte) : List Byte := [hexchar (highNibble v), hexchar (lowNibble v)]

/-- `hex4(v)`: the high byte's pair first (30_encoding.md R91, R92). -/
def hex4 (v : Half) : List Byte := hex2 (offsetHigh v) ++ hex2 (offsetLow v)

/-- `hexval(c)`, none for a non-hex character (30_encoding.md R94). -/
def hexval (c : Byte) : Option (BitVec 4) :=
  let n := c.toNat
  if 0x30 ≤ n ∧ n ≤ 0x39 then some (BitVec.ofNat 4 (n - 0x30))
  else if 0x41 ≤ n ∧ n ≤ 0x46 then some (BitVec.ofNat 4 (n - 0x41 + 10))
  else if Config.acceptLowercase = true ∧ 0x61 ≤ n ∧ n ≤ 0x66 then some (BitVec.ofNat 4 (n - 0x61 + 10))
  else none

/-- The byte `hi*16 + lo` of a digit pair (41_transcoder.md R144). -/
def byteOfDigits (hi lo : BitVec 4) : Byte := BitVec.ofNat 8 (hi.toNat * 16 + lo.toNat)

/-- The offset `hi*256 + lo` of two bytes (41_transcoder.md R144). -/
def halfOfBytes (hi lo : Byte) : Half := BitVec.ofNat 16 (hi.toNat * 256 + lo.toNat)

end Sys2Proof.Machine
end

