-- ==== Sys2Proof/Machine/Ops.lean ====
section
/-! DEFINITION. The shared operations: the address map and the registers of the window (20_memory.md R52 to R60), slot
writes, reporting an error (60_exceptions.md R185 to R187; the block has no trap to take or return from, R184 and R190), the
port, and the platform's reset (70_reset_and_hazards.md R210). -/

namespace Sys2Proof.Machine

/-! ### The window -/

/-- The register or slot an offset names, none for a reserved one (20_memory.md R52 to R54). -/
def windowReg (a : Offset) : Option WindowReg :=
  let n := a.toNat
  if n = 0x000 then some .cmd
  else if n = 0x004 then some .status
  else if n = 0x008 then some .errpos
  else if n = 0x00C then some .csumResult
  else if n = 0x010 then some .recLen
  else if n = 0x014 then some .recOffset
  else if n = 0x018 then some .recType
  else if n = 0x01C then some .recCsum
  else if n = 0x020 then some .tlen
  else if h : 0x400 ≤ n ∧ n ≤ 0x7F8 then some (.data ⟨(n - 0x400) / 4, by unfold Config.dataCap; omega⟩)
  else if h : 0x800 ≤ n ∧ n ≤ 0x1028 then some (.text ⟨(n - 0x800) / 4, by unfold Config.textCap; omega⟩)
  else none

/-- The offset of a register or slot, `offset(NAME)` (20_memory.md R52 to R54, 30_encoding.md R85). -/
def regOffset : WindowReg → Offset
  | .cmd        => 0x000
  | .status     => 0x004
  | .errpos     => 0x008
  | .csumResult => 0x00C
  | .recLen     => 0x010
  | .recOffset  => 0x014
  | .recType    => 0x018
  | .recCsum    => 0x01C
  | .tlen       => 0x020
  | .data k     => BitVec.ofNat 13 (0x400 + 4 * k.val)
  | .text j     => BitVec.ofNat 13 (0x800 + 4 * j.val)

/-- The register an access reaches: only a 4-byte access at an aligned, mapped offset reaches one (20_memory.md R56,
R57). -/
def selectReg (a : Offset) (w : AccessWidth) : Option WindowReg :=
  if w = .four ∧ a.toNat % 4 = 0 then windowReg a else none

/-- The value a read of a register returns, zero-extended to 32 bits; `CMD` reads 0 (20_memory.md R59, R60). -/
def readReg (r : WindowReg) (s : State) : Word :=
  match r with
  | .cmd        => 0
  | .status     => s.status.toWord
  | .errpos     => s.errpos.setWidth 32
  | .csumResult => s.csumResult.setWidth 32
  | .recLen     => s.record.len.setWidth 32
  | .recOffset  => s.record.offset.setWidth 32
  | .recType    => s.record.type.setWidth 32
  | .recCsum    => s.record.csum.setWidth 32
  | .tlen       => s.tlen.setWidth 32
  | .data k     => (s.record.data.get k).setWidth 32
  | .text j     => (s.text.get j).setWidth 32

/-- What a write stores in a register: the low bits of its width (20_memory.md R60). A read-only register ignores it (R58);
`CMD` stores nothing, since its write runs a command (10_state.md R32; Machine/Port.lean). -/
def storeReg (r : WindowReg) (v : Word) (s : State) : State :=
  match r with
  | .cmd        => s
  | .status     => s
  | .errpos     => s
  | .csumResult => s
  | .recLen     => { s with record := { s.record with len := v.setWidth 8 } }
  | .recOffset  => { s with record := { s.record with offset := v.setWidth 16 } }
  | .recType    => { s with record := { s.record with type := v.setWidth 8 } }
  | .recCsum    => { s with record := { s.record with csum := v.setWidth 8 } }
  | .tlen       => { s with tlen := v.setWidth 10 }
  | .data k     => { s with record := { s.record with data := s.record.data.set k (v.setWidth 8) } }
  | .text j     => { s with text := s.text.set j (v.setWidth 8) }

/-! ### Slot writes of a command's commit -/

/-- The list `old` with its first places replaced by `new`, never longer than `old`. -/
def overwriteList : List Byte → List Byte → List Byte
  | [], _             => []
  | old, []           => old
  | _ :: old, b :: bs => b :: overwriteList old bs

theorem overwriteList_length (old new : List Byte) : (overwriteList old new).length = old.length := by
  induction old generalizing new with
  | nil => rfl
  | cons a old ih => cases new <;> simp [overwriteList, ih]

/-- Slots `0, 1, …` take the bytes of `new` in order; every other slot keeps its value (41_transcoder.md R141, R152). -/
def overwrite {n : Nat} (slots : Slots n) (new : List Byte) : Slots n :=
  ⟨overwriteList slots.bytes new, by rw [overwriteList_length, slots.size]⟩

/-! ### Reporting errors -/

/-- `ERR <- code` and `ESTKY <- 1`, the shared report of every failing command (60_exceptions.md R186). -/
def State.reportError (code : ErrCode) (s : State) : State := { s with status := s.status.fail code }

/-- `raise DecodeError(code, pos)`: it writes `ERR`, `ESTKY` and `ERRPOS` and nothing else (60_exceptions.md R185). -/
def State.raiseDecodeError (e : DecodeError) (s : State) : State :=
  { s.reportError e.code with errpos := BitVec.ofNat 10 e.pos }

/-- An illegal command word: `ERR <- ILLEGAL_CMD`, `ESTKY <- 1` and nothing else (60_exceptions.md R187). -/
def State.illegalCommand (s : State) : State := s.reportError .illegalCmd

/-! ### The port -/

/-- What has still to arrive at the port is `es`. -/
def State.withPending (es : List PortEvent) (s : State) : State := { s with port := { s.port with pending := es } }

/-- `s` with the event `e` next at its port; every state with something pending is of this form. -/
def State.facing (e : PortEvent) (s : State) : State := s.withPending (e :: s.port.pending)

/-- The port takes its oldest event, leaving `rest`; no answer stands yet (20_memory.md R71). -/
def State.accept (rest : List PortEvent) (s : State) : State :=
  { s with port := { s.port with pending := rest, response := .none } }

/-- The port answers the host. -/
def State.respond (r : PortResponse) (s : State) : State := { s with port := { s.port with response := r } }

/-- The platform's reset (70_reset_and_hazards.md R210): a fresh free draw for what R37 leaves unspecified, 0 for the rest.
DESIGN CHOICE (log entry 2): the draw is keyed by this block's number and its own count of resets, so it is related to no
draw of another instance (60_exceptions.md R195). What the host has still to send stays to come (log entry 3). -/
def State.platformReset (s : State) : State :=
  State.resetTo (ResetDraw.free s.port.block s.port.resets) { s.port with resets := s.port.resets + 1 }

/-- `MemRead(a, w)`: the register's value with no side effect, or a bus error without a value (20_memory.md R55 to R61). -/
def memRead (a : Offset) (w : AccessWidth) (s : State) : Host.Outcome State Fault Refusal :=
  match selectReg a w with
  | some r => .next (s.respond (.readData (readReg r s)))
  | none   => .fault (.busError a)

end Sys2Proof.Machine
end

