-- ==== Sys2Proof/Machine/Checksum.lean ====
section
/-! DEFINITION. The checksum engine: the checksum function and the commands `CSUM_CALC` and `CSUM_CHECK` (40_checksum.md),
with the checks on a record that R121 and 30_encoding.md R100 define. -/

namespace Sys2Proof.Machine

/-- `sum8`: length, offset high, offset low, type and exactly `REC_LEN` data bytes, modulo 256 (40_checksum.md R120). -/
def Record.sum8 (r : Record) : Nat :=
  (r.len.toNat + (offsetHigh r.offset).toNat + (offsetLow r.offset).toNat + r.type.toNat
    + (r.dataBytes.map (·.toNat)).sum) % 256

/-- `csum()`, the two's complement of `sum8` (40_checksum.md R120). -/
def Record.checksum (r : Record) : Byte := BitVec.ofNat 8 ((256 - r.sum8) % 256)

/-- A record is checksum-valid when all its bytes sum to 0 modulo 256 (40_checksum.md R121). -/
def Record.checksumValid (r : Record) : Bool := (r.sum8 + r.csum.toNat) % 256 == 0

/-- The length agrees with the type (30_encoding.md R95): 0 for EndOfFile, 2 for ExtendedLinearAddress. No command checks
it (R96). -/
def Record.lengthAgrees (r : Record) : Bool :=
  if r.type = 0x00 then true
  else if r.type = 0x01 then r.len == 0
  else if r.type = 0x04 then r.len == 2
  else false

/-- A well-formed record (30_encoding.md R100). -/
def Record.wellFormed (r : Record) : Bool := r.checksumValid && r.lengthAgrees

/-- `CSUM_CALC` (40_checksum.md R125). -/
def execCsumCalc (s : State) : Host.Outcome State Fault Refusal :=
  let c := s.record.checksum
  .next { s with record := { s.record with csum := c }, csumResult := c, status := s.status.setOk }

/-- `CSUM_CHECK` (40_checksum.md R126); a mismatch is data, not an error (R127). -/
def execCsumCheck (s : State) : Host.Outcome State Fault Refusal :=
  let c := s.record.checksum
  .next { s with csumResult := c, status := (s.status.setCkok (c == s.record.csum)).setOk }

end Sys2Proof.Machine
end

