-- ==== Sys2Proof/Machine/Transcoder.lean ====
section
/-! DEFINITION. The record-text transcoder: the commands `ENCODE` and `DECODE` (41_transcoder.md). -/

namespace Sys2Proof.Machine

/-! ### ENCODE -/

/-- The record line (30_encoding.md R90, in the positions of R97); the checksum is the stored one (41_transcoder.md
R142). -/
def Record.lineText (r : Record) : List Byte :=
  codeColon :: hex2 r.len ++ hex4 r.offset ++ hex2 r.type ++ r.dataBytes.flatMap hex2 ++ hex2 r.csum ++ [codeCR, codeLF]

/-- `ENCODE` (41_transcoder.md R140, R141). It cannot fail (R143). -/
def execEncode (s : State) : Host.Outcome State Fault Refusal :=
  .next { s with text := overwrite s.text s.record.lineText, tlen := BitVec.ofNat 10 (13 + 2 * s.record.len.toNat),
                 status := s.status.setOk }

/-! ### DECODE -/

/-- `need(p)` and the read of `TEXT[p]`: a position at or past `TLEN` is `TRUNCATED` and is not read (41_transcoder.md
R146). `chars` holds exactly the characters below `TLEN`. -/
def parseChar (chars : List Byte) (p : Nat) : Except DecodeError Byte :=
  match chars[p]? with
  | some c => .ok c
  | none   => .error { code := .truncated, pos := p }

/-- The mark check at position 0 (41_transcoder.md R147). -/
def parseMark (chars : List Byte) : Except DecodeError Unit := do
  let c ← parseChar chars 0
  if c = codeColon then .ok () else .error { code := .badMark, pos := 0 }

/-- `digit(p)`: presence first, then the hex digit (41_transcoder.md R148, R149). -/
def parseDigit (chars : List Byte) (p : Nat) : Except DecodeError (BitVec 4) := do
  let c ← parseChar chars p
  match hexval c with
  | some d => .ok d
  | none   => .error { code := .badDigit, pos := p }

/-- `byte(p)`: position `p` is checked before `p+1` (41_transcoder.md R144). -/
def parseByte (chars : List Byte) (p : Nat) : Except DecodeError Byte := do
  let hi ← parseDigit chars p
  let lo ← parseDigit chars (p + 1)
  .ok (byteOfDigits hi lo)

/-- The `n` byte-pairs from position `p` on, in increasing order (41_transcoder.md R144, R149). -/
def parseBytes (chars : List Byte) (p : Nat) : Nat → Except DecodeError (List Byte)
  | 0     => .ok []
  | n + 1 => do
    let b ← parseByte chars p
    let bs ← parseBytes chars (p + 2) n
    .ok (b :: bs)

/-- The parse of a line, positions in increasing order (41_transcoder.md R144, R149); what follows the checksum pair is not
read (R153). -/
def parseLine (chars : List Byte) : Except DecodeError ParsedRecord := do
  parseMark chars
  let ll ← parseByte chars 1
  let oh ← parseByte chars 3
  let ol ← parseByte chars 5
  let ty ← parseByte chars 7
  let d ← parseBytes chars 9 ll.toNat
  let cs ← parseByte chars (9 + 2 * ll.toNat)
  .ok { len := ll, offset := halfOfBytes oh ol, type := ty, data := d, csum := cs }

/-- `BAD_TLEN` before any position, then the parse (41_transcoder.md R145, R149). -/
def State.parse (s : State) : Except DecodeError ParsedRecord :=
  if Config.textCap < s.tlen.toNat then .error { code := .badTlen, pos := 0 } else parseLine s.line

/-- The commit of a successful `DECODE` (41_transcoder.md R150, R152): `DATA[k]` from `ll` on keeps its value. -/
def State.commitRecord (p : ParsedRecord) (s : State) : State :=
  { s with record := { len := p.len, offset := p.offset, type := p.type, csum := p.csum,
                       data := overwrite s.record.data p.data },
           errpos := 0, status := s.status.setOk }

/-- `DECODE` (41_transcoder.md R144 to R155). -/
def execDecode (s : State) : Host.Outcome State Fault Refusal :=
  match s.parse with
  | .ok p    => .next (s.commitRecord p)
  | .error e => .next (s.raiseDecodeError e)

end Sys2Proof.Machine
end

