-- ==== Sys2Proof/Machine/Port.lean ====
section
/-! DEFINITION. One transaction at the port: a read, a write, a command word written to `CMD`, or the platform's reset
(20_memory.md R55 to R61, R70; 70_reset_and_hazards.md R210). -/

namespace Sys2Proof.Machine

/-- A command word written to `CMD` (20_memory.md R70): the command it selects, or the report of an illegal word
(60_exceptions.md R187). -/
def runCommand (v : Word) (s : State) : Host.Outcome State Fault Refusal :=
  match decodeWord v with
  | .ok i    => exec i s
  | .error _ => .next s.illegalCommand

/-- `MemWrite(a, w, v)`: a command, a store, or a bus error (20_memory.md R55 to R61, R70). -/
def memWrite (a : Offset) (w : AccessWidth) (v : Word) (s : State) : Host.Outcome State Fault Refusal :=
  match selectReg a w with
  | some .cmd => runCommand v (s.respond .writeDone)
  | some r    => .next ((storeReg r v s).respond .writeDone)
  | none      => .fault (.busError a)

/-- What one event at the port does. -/
def serve (e : PortEvent) (s : State) : Host.Outcome State Fault Refusal :=
  match e with
  | .memRead a w    => memRead a w s
  | .memWrite a w v => memWrite a w v s
  | .reset          => .next s.platformReset

/-- The write of a command word to `CMD`, at the front of what the port has still to take. -/
def State.writeCommandFirst (v : Word) (s : State) : State := s.facing (.memWrite (regOffset .cmd) .four v)

end Sys2Proof.Machine
end

