-- ==== Sys2Proof/Machine/Step.lean ====
section
/-! DEFINITION. The step: the block takes the oldest event at its port and performs it whole; with none it is idle and its
state does not change (60_exceptions.md R198, 20_memory.md R55, R70, R71). -/

namespace Sys2Proof.Machine

/-- One step of the block. -/
def step (s : State) : Host.Outcome State Fault Refusal :=
  match s.port.pending with
  | []        => .next s
  | e :: rest => serve e (s.accept rest)

/-- The command word of an opcode-table row, written to `CMD` as the next transaction: the block fetches no instructions, a
command comes from the value written to `CMD` (20_memory.md R74; log entry 3). -/
def State.withFetchWord (s : State) (nbits w : Nat) : State := s.writeCommandFirst (tableWord nbits w)

end Sys2Proof.Machine
end

