-- ==== Sys2Proof/Machine/HostNotation.lean ====
section
/-! DEFINITION. The host-program notation as port events: single transactions (30_encoding.md R85) and the
pseudo-instructions (R86). -/

namespace Sys2Proof.Machine

/-- `wr NAME, v`, `wr DATA[k], v` and `wr TEXT[j], v` (30_encoding.md R85). -/
def wr (r : WindowReg) (v : Word) : PortEvent := .memWrite (regOffset r) .four v

/-- `rd NAME`, `rd DATA[k]` and `rd TEXT[j]` (30_encoding.md R85). -/
def rd (r : WindowReg) : PortEvent := .memRead (regOffset r) .four

/-- A command's mnemonic: the write of its word to `CMD` (30_encoding.md R85). -/
def issue (i : Instr) : PortEvent := wr .cmd (encode i)

/-- `wr` of consecutive slots from slot `k` on, by the offsets of 20_memory.md R53 and R54. -/
def writeSlots (base : Nat) : Nat → List Byte → List PortEvent
  | _, []      => []
  | k, b :: bs => .memWrite (BitVec.ofNat 13 (base + 4 * k)) .four (b.setWidth 32) :: writeSlots base (k + 1) bs

/-- `set_record LL, OOOO, TT, [d0, d1, ...]` (30_encoding.md R86). -/
def setRecord (ll : Byte) (oooo : Half) (tt : Byte) (d : List Byte) : List PortEvent :=
  [wr .recLen (ll.setWidth 32), wr .recOffset (oooo.setWidth 32), wr .recType (tt.setWidth 32)] ++ writeSlots 0x400 0 d

/-- `load_line "s"`, the string given as its character codes (30_encoding.md R86, R93). -/
def loadLine (cs : List Byte) : List PortEvent :=
  writeSlots 0x800 0 cs ++ [wr .tlen (BitVec.ofNat 32 cs.length)]

/-- `read_line` (30_encoding.md R86) for a host that found `TLEN = n` in its first read (log entry 12). -/
def readLine (n : Nat) : List PortEvent :=
  rd .tlen :: (List.range n).map fun j => .memRead (BitVec.ofNat 13 (0x800 + 4 * j)) .four

/-- `emit LL, OOOO, TT, [d...]` (30_encoding.md R86); the line it reads has `LINE_LEN(LL)` characters. -/
def emit (ll : Byte) (oooo : Half) (tt : Byte) (d : List Byte) : List PortEvent :=
  setRecord ll oooo tt d ++ [issue .csumCalc, issue .encode] ++ readLine (Config.lineLen ll.toNat)

end Sys2Proof.Machine
end

