-- ==== Sys2Proof/Machine/Platform.lean ====
section
/-! DEFINITION. The platform around the block: instances and their windows (20_memory.md R50, R51; 60_exceptions.md R195),
and the orders in which several host agents' transactions may reach one port (20_memory.md R71, R72, R76). -/

namespace Sys2Proof.Machine

/-- The instance whose window holds the host address, and the offset in it: the host address is `IHX_BASE + a` with
`a < 0x2000` (20_memory.md R51). The first of several overlapping windows is taken (log entry 6). -/
def Platform.locate : List Nat → Nat → Option (Nat × Offset)
  | [], _           => none
  | b :: bases, adr =>
    if b ≤ adr ∧ adr < b + Config.windowSize then some (0, BitVec.ofNat 13 (adr - b))
    else (Platform.locate bases adr).map fun p => (p.1 + 1, p.2)

/-- The instances stand in the list by their own numbers, so that no two share a number (log entry 2). -/
def Platform.Numbered (blocks : List State) : Prop := ∀ (k : Nat) (s : State), blocks[k]? = some s → s.port.block = k

/-- `n` instances after the platform's first reset of each: every one has its own free draw, and nothing is shared between
them (10_state.md R37, 60_exceptions.md R195; log entry 2). -/
def Platform.powerOn (n : Nat) : List State :=
  (List.range n).map fun k => State.resetTo (ResetDraw.free k 0) { pending := [], response := .none, block := k, resets := 1 }

/-- An event arrives at a block's port, after all that arrived before it (20_memory.md R71). -/
def State.arrive (e : PortEvent) (s : State) : State :=
  { s with port := { s.port with pending := s.port.pending ++ [e] } }

/-- A host read or write at a host address reaches the port of the instance whose window holds it, and no other instance; an
address outside every window is the platform's business (20_memory.md R51; log entry 6). -/
def Platform.post (P : Config.Platform) (adr : Nat) (mk : Offset → PortEvent) (blocks : List State) : List State :=
  match Platform.locate P.ihxBases adr with
  | some (k, a) => blocks.modify k (State.arrive (mk a))
  | none        => blocks

/-- The platform resets instance `k`, after what its port has still to take (70_reset_and_hazards.md R210). -/
def Platform.postReset (k : Nat) (blocks : List State) : List State := blocks.modify k (State.arrive .reset)

/-- Instance `k` takes one step; no other instance changes (60_exceptions.md R195). -/
def Platform.stepAt (k : Nat) (blocks : List State) : Host.Outcome (List State) Fault Refusal :=
  match blocks[k]? with
  | none   => .next blocks
  | some s =>
    match step s with
    | .next t    => .next (blocks.set k t)
    | .fault r   => .fault r
    | .refused r => .refused r

/-- How one host's accesses may be delivered: in program order when `HOST_ORDERED_PORT` holds, in any order otherwise
(20_memory.md R72). -/
def Delivered (ordered : Bool) (issued delivered : List PortEvent) : Prop :=
  if ordered then delivered = issued else delivered.Perm issued

/-- The arrival orders of several agents' sequences at one port: each agent's own sequence keeps its order and every
interleaving is admitted (20_memory.md R76, 93_implementation_defined.md U4). -/
inductive Merge : List (List PortEvent) → List PortEvent → Prop
  | done {ls} : (∀ l ∈ ls, l = []) → Merge ls []
  | take {ls k e l out} : ls[k]? = some (e :: l) → Merge (ls.set k l) out → Merge ls (e :: out)

/-- What may arrive at one port when its hosts issue `programs`, one program each. -/
def Arrives (P : Config.Platform) (programs : List (List PortEvent)) (arrived : List PortEvent) : Prop :=
  ∃ delivered, List.Forall₂ (Delivered P.hostOrderedPort) programs delivered ∧ Merge delivered arrived

end Sys2Proof.Machine
end

