-- ==== Sys2Proof/Safety.lean ====
section
/-! DEFINITION. What a safe run is: the invariant of the status registers, the runs in which no host access is a bus error,
and the positions of a record line in the terms the statements use. -/

namespace Sys2Proof.Machine

/-- The invariant: `ERR` is one of the codes 0 to 5 (60_exceptions.md R180), an error in `ERR` stands in `ESTKY` too (R186),
and `ERRPOS` is a position a parse can need, at most `10 + 2·255` (41_transcoder.md R149). -/
abbrev State.Inv (s : State) : Prop :=
  s.status.err.toNat ≤ 5 ∧ (s.status.err ≠ 0 → s.status.estky = true) ∧ s.errpos.toNat ≤ 520

/-- Every event still to come is one the block completes (20_memory.md R56, R57). -/
def State.OnlyLegal (s : State) : Prop := ∀ e ∈ s.port.pending, e.wellFormed = true

/-- `n` steps, stopping at the first fault or refusal. -/
def run : Nat → State → Host.Outcome State Fault Refusal
  | 0, s     => .next s
  | n + 1, s =>
    match step s with
    | .next t    => run n t
    | .fault r   => .fault r
    | .refused r => .refused r

/-- The block without the model's own port: what R61 says a read leaves alone. -/
def State.SameBlock (s t : State) : Prop :=
  t.record = s.record ∧ t.text = s.text ∧ t.tlen = s.tlen ∧ t.csumResult = s.csumResult ∧ t.status = s.status ∧
    t.errpos = s.errpos

/-- Character position `p` of the line handed to `DECODE`: there is one only below `TLEN` (41_transcoder.md R146). -/
def State.charAt (s : State) (p : Nat) : Option Byte :=
  if p < s.tlen.toNat then s.text.bytes[p]? else none

/-- The byte-pair at positions `p` and `p+1`, where both are present hex digits (30_encoding.md R92, R94). -/
def State.pairAt (s : State) (p : Nat) : Option Byte :=
  (s.charAt p).bind fun c => (hexval c).bind fun hi =>
    (s.charAt (p + 1)).bind fun c' => (hexval c').map fun lo => BitVec.ofNat 8 (hi.toNat * 16 + lo.toNat)

/-- Position `p` passes: it is present, and it is the mark at 0 and a hex digit elsewhere (41_transcoder.md R146 to
R148). -/
def State.passes (s : State) (p : Nat) : Bool :=
  match s.charAt p with
  | none   => false
  | some c => if p = 0 then c == 0x3A else (hexval c).isSome

/-- The code of a failure at position `p`: a missing character wins over a bad one (41_transcoder.md R149). -/
def State.failure (s : State) (p : Nat) : ErrCode :=
  if s.tlen.toNat ≤ p then .truncated else if p = 0 then .badMark else .badDigit

/-- The parse needs position `p`: all up to 2, and from there on up to `10 + 2·ll` for the length at positions 1 and 2
(41_transcoder.md R149). -/
def State.needs (s : State) (p : Nat) : Prop :=
  p ≤ 2 ∨ ∃ ll, s.pairAt 1 = some ll ∧ p ≤ 10 + 2 * ll.toNat

/-- A line with the shape of 30_encoding.md R90, whatever its checksum digits say: what `ENCODE` writes for any record
(41_transcoder.md R142). -/
def RecordLine (chars : List Byte) : Prop := ∃ r : Record, chars = r.lineText

/-- A well-formed line (30_encoding.md R100): the characters of R90 for a record whose stored checksum is correct. DEDUCED (log
entry 14): R100 says that such lines come "only from records whose checksum is correct", so R90's `CC` is that checksum. The
type does not matter (R96). -/
def WellFormedLine (chars : List Byte) : Prop := ∃ r : Record, r.checksumValid = true ∧ chars = r.lineText

end Sys2Proof.Machine
end

