-- ==== Sys2Proof/Certificates/Slice0/Obligations.lean ====
section
/-! DEFINITION. The statements. `s.facing e` is the state `s` with the event `e` next at its port; every state with something
pending is of that form, so a statement about `step (s.facing e)` is one about every step that performs `e`. `s.respond r` is
`s` with the port's answer `r` and nothing else changed. Window offsets, command words, character codes and error codes stand
as numbers, as the spec prints them. -/

open Sys2Proof Sys2Proof.Machine

/-! ### Command words -/

/-- 30_encoding.md R81: the four words of the opcode map decode to their commands. -/
def Obligations.CommandWordsDecodeToTheirCommands : Prop :=
  decodeWord 0x00000001 = .ok .csumCalc ∧ decodeWord 0x00000002 = .ok .csumCheck ∧
    decodeWord 0x00000003 = .ok .encode ∧ decodeWord 0x00000004 = .ok .decode

/-- 30_encoding.md R83: of all 2^32 words, the four of the opcode map are legal, each the word `encode` gives its command, and
all the rest are illegal. -/
def Obligations.ExactlyTheEncodedWordsAreLegal : Prop :=
  (∀ i : Instr, decodeWord (encode i) = .ok i) ∧
    ∀ v : Word, (∃ i, v = encode i ∧ (v = 1 ∨ v = 2 ∨ v = 3 ∨ v = 4)) ∨ ((∀ i, v ≠ encode i) ∧ ∃ x, decodeWord v = .error x)

/-- 30_encoding.md R82 and 60_exceptions.md R187: a word with `OP = 0`, `OP` in 5 to 15, or `RSVD ≠ 0` executes no command; it
sets `ERR` to 1 and `ESTKY`, and changes nothing else of the block. -/
def Obligations.IllegalWordSetsErrAndStickyOnly : Prop :=
  ∀ (s : State) (v : Word), (v.toNat % 16 = 0 ∨ 5 ≤ v.toNat % 16 ∨ v.toNat / 16 ≠ 0) →
    step (s.facing (.memWrite 0x000 .four v)) =
      .next { s with status := { s.status with err := 1, estky := true }, port := { s.port with response := .writeDone } }

/-- The step runs the decoded command: a write of a word that decodes to `i` is `exec i` at the state with that event taken
and the write answered; nothing else is added around it. The event at the port and its answer are the model's (log entry 3).
-/
def Obligations.StepRunsTheDecodedCommand : Prop :=
  ∀ (s : State) (v : Word) (i : Instr) (rest : List PortEvent),
    s.port.pending = .memWrite 0x000 .four v :: rest → decodeWord v = .ok i →
      step s = exec i { s with port := { s.port with pending := rest, response := .writeDone } }

/-- The host's placement of an opcode-table word runs exactly the command the decoder reads from it. That the write stands
first at the port is the model's choice (log entry 3). -/
def Obligations.PlacedTableWordRunsNext : Prop :=
  ∀ (s : State) (nbits w : Nat) (i : Instr), decodeTableWord nbits w = some i →
    step (s.withFetchWord nbits w) = exec i (s.respond .writeDone)

/-! ### The register window -/

/-- 20_memory.md R53 and R54 with the register offsets of R52: each register and slot is reached at its own offset, by a
4-byte access, and by no other access. -/
def Obligations.WindowOffsetsSelectTheirRegisters : Prop :=
  selectReg 0x000 .four = some .cmd ∧ selectReg 0x004 .four = some .status ∧ selectReg 0x008 .four = some .errpos ∧
    selectReg 0x00C .four = some .csumResult ∧ selectReg 0x010 .four = some .recLen ∧
    selectReg 0x014 .four = some .recOffset ∧ selectReg 0x018 .four = some .recType ∧
    selectReg 0x01C .four = some .recCsum ∧ selectReg 0x020 .four = some .tlen ∧
    (∀ k : Fin 255, selectReg (BitVec.ofNat 13 (0x400 + 4 * k.val)) .four = some (.data k)) ∧
    (∀ j : Fin 523, selectReg (BitVec.ofNat 13 (0x800 + 4 * j.val)) .four = some (.text j)) ∧
    ∀ (a b : Offset) (w w' : AccessWidth) (r : WindowReg),
      selectReg a w = some r → selectReg b w' = some r → a = b ∧ w = .four

/-- 20_memory.md R60: a write to a read/write register or slot of width `w` stores the low `w` bits and changes nothing else;
a read of any register or slot but `CMD` returns its value zero-extended; the reserved bits of `STATUS` read 0. -/
def Obligations.WritesKeepLowBitsAndReadsZeroExtend : Prop :=
  ∀ (s : State) (v : Word),
    let writes := fun (a : Offset) (t : State) => step (s.facing (.memWrite a .four v)) = .next (t.respond .writeDone)
    let reads := fun (a : Offset) (n : Nat) => ∃ x : Word, x.toNat = n ∧
      step (s.facing (.memRead a .four)) = .next (s.respond (.readData x))
    writes 0x010 { s with record.len := v.extractLsb' 0 8 } ∧
    writes 0x014 { s with record.offset := v.extractLsb' 0 16 } ∧
    writes 0x018 { s with record.type := v.extractLsb' 0 8 } ∧
    writes 0x01C { s with record.csum := v.extractLsb' 0 8 } ∧
    writes 0x020 { s with tlen := v.extractLsb' 0 10 } ∧
    (∀ k : Fin 255, writes (BitVec.ofNat 13 (0x400 + 4 * k.val))
      { s with record.data := s.record.data.set k (v.extractLsb' 0 8) }) ∧
    (∀ j : Fin 523, writes (BitVec.ofNat 13 (0x800 + 4 * j.val)) { s with text := s.text.set j (v.extractLsb' 0 8) }) ∧
    (∃ x : Word, x.extractLsb' 0 4 = s.status.err ∧ x.extractLsb' 4 4 = 0 ∧ x.getLsbD 8 = s.status.ckok ∧
      x.getLsbD 9 = s.status.estky ∧ x.extractLsb' 10 22 = 0 ∧
      step (s.facing (.memRead 0x004 .four)) = .next (s.respond (.readData x))) ∧
    reads 0x008 s.errpos.toNat ∧ reads 0x00C s.csumResult.toNat ∧ reads 0x010 s.record.len.toNat ∧
    reads 0x014 s.record.offset.toNat ∧ reads 0x018 s.record.type.toNat ∧ reads 0x01C s.record.csum.toNat ∧
    reads 0x020 s.tlen.toNat ∧
    (∀ k : Fin 255, reads (BitVec.ofNat 13 (0x400 + 4 * k.val)) (s.record.data.get k).toNat) ∧
    ∀ j : Fin 523, reads (BitVec.ofNat 13 (0x800 + 4 * j.val)) (s.text.get j).toNat

/-- 10_state.md R29, the layout: `STATUS` reads `ERR` in bits [3:0], `CKOK` in bit [8], `ESTKY` in bit [9], and 0 elsewhere;
the read changes nothing else. -/
def Obligations.StatusReadsItsFieldsInPlace : Prop :=
  ∀ s : State, ∃ x : Word, step (s.facing (.memRead 0x004 .four)) = .next (s.respond (.readData x)) ∧
    x.toNat = s.status.err.toNat + 0x100 * s.status.ckok.toNat + 0x200 * s.status.estky.toNat ∧
    x.getLsbD 8 = s.status.ckok ∧ x.getLsbD 9 = s.status.estky

/-- 20_memory.md R58: a write to `STATUS`, `ERRPOS` or `CSUM_RESULT` is accepted and changes no state of the block. -/
def Obligations.ReadOnlyRegistersIgnoreWrites : Prop :=
  ∀ (s : State) (v : Word) (a : Offset), a = 0x004 ∨ a = 0x008 ∨ a = 0x00C →
    step (s.facing (.memWrite a .four v)) = .next (s.respond .writeDone)

/-- 20_memory.md R59: a read of `CMD` returns 0 and has no side effect. -/
def Obligations.CmdReadsZero : Prop :=
  ∀ s : State, step (s.facing (.memRead 0x000 .four)) = .next (s.respond (.readData 0))

/-- 20_memory.md R56 and R57: an access that is not 4 bytes wide, is misaligned, or goes to a reserved offset is a bus error:
the read has no value, and no state follows in which a write could have changed something. -/
def Obligations.IllegalAccessIsABusError : Prop :=
  ∀ (s : State) (a : Offset) (w : AccessWidth),
    (w ≠ .four ∨ a.toNat % 4 ≠ 0 ∨ (0x024 ≤ a.toNat ∧ a.toNat ≤ 0x3FF) ∨ (0x7FC ≤ a.toNat ∧ a.toNat ≤ 0x7FF) ∨
      (0x102C ≤ a.toNat ∧ a.toNat ≤ 0x1FFF)) →
      step (s.facing (.memRead a w)) = .fault (.busError a) ∧
        ∀ v, step (s.facing (.memWrite a w v)) = .fault (.busError a)

/-- Every aligned 4-byte access to an offset that 20_memory.md R52 maps completes: a read answers with a value, and a write
is accepted. -/
def Obligations.LegalAccessCompletes : Prop :=
  ∀ (s : State) (a : Offset), a.toNat % 4 = 0 →
    (a.toNat ≤ 0x020 ∨ (0x400 ≤ a.toNat ∧ a.toNat ≤ 0x7F8) ∨ (0x800 ≤ a.toNat ∧ a.toNat ≤ 0x1028)) →
      (∃ x, step (s.facing (.memRead a .four)) = .next (s.respond (.readData x))) ∧
        ∀ v, ∃ t, step (s.facing (.memWrite a .four v)) = .next t ∧ t.port = { s.port with response := .writeDone }

/-- A read has no side effect on the block and leaves the port's later events alone; asked again, the register gives the same
value. -/
def Obligations.ReadsHaveNoSideEffect : Prop :=
  ∀ (s t : State) (a : Offset) (w : AccessWidth), step (s.facing (.memRead a w)) = .next t →
    s.SameBlock t ∧ t.port.pending = s.port.pending ∧ t.port.resets = s.port.resets ∧
      step (t.facing (.memRead a w)) = .next t

/-- Writing a value twice to a register or slot other than `CMD` is the same as writing it once. -/
def Obligations.StoresAreIdempotent : Prop :=
  ∀ (s t : State) (a : Offset) (w : AccessWidth) (v : Word), a ≠ 0x000 →
    step (s.facing (.memWrite a w v)) = .next t → step (t.facing (.memWrite a w v)) = .next t

/-! ### Reset and idleness -/

/-- A reset event makes `STATUS`, `ERRPOS` and `CSUM_RESULT` 0; the record register set, `TEXT` and `TLEN` take some value
each, of which nothing is said; what is still to arrive stays. The draw and the port are the model's choice (log entries 2 and
3). -/
def Obligations.ResetClearsStatusAndResult : Prop :=
  ∀ s : State, ∃ t, step (s.facing .reset) = .next t ∧ t.status = { err := 0, ckok := false, estky := false } ∧
    t.errpos = 0 ∧ t.csumResult = 0 ∧ t.port.pending = s.port.pending ∧ t.port.response = .none

/-- Whatever the unspecified items hold after reset, `STATUS`, `ERRPOS` and `CSUM_RESULT` read 0 before any command. -/
def Obligations.StatusReadsZeroAfterReset : Prop :=
  ∀ (d : ResetDraw) (p : Port) (a : Offset), a = 0x004 ∨ a = 0x008 ∨ a = 0x00C →
    step ((State.resetTo d p).facing (.memRead a .four)) = .next ((State.resetTo d p).respond (.readData 0))

/-- The block never steps on its own: with nothing at its port its state does not change. The step with nothing at the port is
the model's (log entry 3). -/
def Obligations.IdleBlockKeepsItsState : Prop :=
  ∀ s : State, s.port.pending = [] → step s = .next s

/-! ### The checksum engine -/

/-- 40_checksum.md R120 and R125: `CSUM_CALC`, the command word 1, writes the two's complement of the sum of length, offset
high, offset low, type and exactly `REC_LEN` data slots, modulo 256, to `REC_CSUM` and `CSUM_RESULT`, clears `ERR`, and
changes nothing else. -/
def Obligations.CsumCalcStoresTheChecksum : Prop :=
  decodeWord 0x00000001 = .ok .csumCalc ∧ ∀ s : State,
    let sum8 := (s.record.len.toNat + s.record.offset.toNat / 256 + s.record.offset.toNat % 256 + s.record.type.toNat +
      ∑ k : Fin 255, if k.val < s.record.len.toNat then (s.record.data.get k).toNat else 0) % 256
    ∃ c : Byte, c.toNat = (256 - sum8) % 256 ∧
      exec .csumCalc s = .next { s with record.csum := c, csumResult := c, status := { s.status with err := 0 } }

/-- 40_checksum.md R126 and R127: `CSUM_CHECK`, the command word 2, recomputes the checksum into `CSUM_RESULT`, sets `CKOK` to
whether it equals `REC_CSUM`, clears `ERR` whatever the outcome, and changes nothing else: not `REC_CSUM`, not `ESTKY`. -/
def Obligations.CsumCheckComparesWithTheStored : Prop :=
  decodeWord 0x00000002 = .ok .csumCheck ∧ ∀ s : State,
    let sum8 := (s.record.len.toNat + s.record.offset.toNat / 256 + s.record.offset.toNat % 256 + s.record.type.toNat +
      ∑ k : Fin 255, if k.val < s.record.len.toNat then (s.record.data.get k).toNat else 0) % 256
    ∃ c : Byte, c.toNat = (256 - sum8) % 256 ∧
      exec .csumCheck s =
        .next { s with csumResult := c, status := { s.status with err := 0, ckok := decide (c = s.record.csum) } }

/-- A record's bytes with its stored checksum sum to 0 modulo 256 exactly when the stored checksum is the computed one. The
spec's own inference, 40_checksum.md R121: "A record is checksum-valid when `(sum8 + REC_CSUM) mod 256 = 0`, which is the same
as `csum() = REC_CSUM`." -/
def Obligations.ZeroSumMeansStoredChecksumIsComputed : Prop :=
  ∀ r : Record, (r.sum8 + r.csum.toNat) % 256 = 0 ↔ r.checksum = r.csum

/-- An 8-bit wrapping accumulator gives the same checksum, as its negation and as its complement plus one. The spec's own
inferences, 40_checksum.md R122 and R123: "The sum may be kept modulo 256 after each addition". -/
def Obligations.WrappingAccumulatorGivesTheChecksum : Prop :=
  ∀ r : Record,
    let acc := r.dataBytes.foldl (· + ·) (r.len + r.offset.extractLsb' 8 8 + r.offset.extractLsb' 0 8 + r.type)
    r.checksum = -acc ∧ r.checksum = (acc ^^^ 0xFF) + 1

/-- The data slots beyond `REC_LEN`, the line buffer and `TLEN` have no effect on the checksum: two states that agree on the
header and on the slots below the length get the same `CSUM_RESULT` from either command. The spec's own inference,
40_checksum.md R124: "The value of every slot beyond the length therefore has no effect on `csum()`". -/
def Obligations.ChecksumIgnoresSlotsBeyondTheLength : Prop :=
  ∀ (s s' t t' : State) (i : Instr), i = .csumCalc ∨ i = .csumCheck →
    s'.record.len = s.record.len → s'.record.offset = s.record.offset → s'.record.type = s.record.type →
    (∀ k : Fin 255, k.val < s.record.len.toNat → s'.record.data.get k = s.record.data.get k) →
    exec i s = .next t → exec i s' = .next t' → t'.csumResult = t.csumResult

/-- `CSUM_CALC` issued twice leaves the state that issuing it once leaves; `CSUM_CHECK` directly after it sets `CKOK`. The
spec's own inference, the first two laws of 40_checksum.md R128. -/
def Obligations.CsumCalcIsStableAndChecksOut : Prop :=
  ∀ s t : State, exec .csumCalc s = .next t →
    exec .csumCalc t = .next t ∧ exec .csumCheck t = .next { t with status.ckok := true }

/-! ### The formatter -/

/-- 30_encoding.md R91: `hex2` and `hex4` are the uppercase, fixed-width digits of a byte and of a 16-bit value. -/
def Obligations.HexTextIsUppercaseFixedWidth : Prop :=
  let digit := fun n : Nat => if n ≤ 9 then BitVec.ofNat 8 (0x30 + n) else BitVec.ofNat 8 (0x41 + (n - 10))
  (∀ v : Byte, hex2 v = [digit (v.toNat / 16), digit (v.toNat % 16)]) ∧
    ∀ v : Half, hex4 v = [digit (v.toNat / 4096), digit (v.toNat / 256 % 16), digit (v.toNat / 16 % 16), digit (v.toNat % 16)]

/-- 41_transcoder.md R140 and R141: `ENCODE`, the command word 3, writes the mark, the digit pairs of length, offset high,
offset low, type, each data byte and the stored checksum, and CR LF at their positions; `TLEN` becomes `13 + 2L` and `ERR` 0;
every other slot and register keeps its value. -/
def Obligations.EncodeWritesTheLineAndNothingElse : Prop :=
  decodeWord 0x00000003 = .ok .encode ∧ ∀ s : State, ∃ t, exec .encode s = .next t ∧
    let L := s.record.len.toNat
    let put := fun (p : Nat) (v : Byte) =>
      t.text.bytes[p]? = some (hexchar (highNibble v)) ∧ t.text.bytes[p + 1]? = some (hexchar (lowNibble v))
    t = { s with text := t.text, tlen := t.tlen, status := { s.status with err := 0 } } ∧
    t.text.bytes[0]? = some 0x3A ∧ put 1 s.record.len ∧ put 3 (offsetHigh s.record.offset) ∧
    put 5 (offsetLow s.record.offset) ∧ put 7 s.record.type ∧
    (∀ k : Fin 255, k.val < L → put (9 + 2 * k.val) (s.record.data.get k)) ∧ put (9 + 2 * L) s.record.csum ∧
    t.text.bytes[11 + 2 * L]? = some 0x0D ∧ t.text.bytes[12 + 2 * L]? = some 0x0A ∧ t.tlen.toNat = 13 + 2 * L ∧
    ∀ j, 13 + 2 * L ≤ j → t.text.bytes[j]? = s.text.bytes[j]?

/-- 30_encoding.md R90: the first `TLEN` characters after `ENCODE` are the record line of the record. -/
def Obligations.EncodedTextIsTheRecordLine : Prop :=
  ∀ s t : State, exec .encode s = .next t →
    t.text.bytes.take t.tlen.toNat =
      [0x3A] ++ hex2 s.record.len ++ hex4 s.record.offset ++ hex2 s.record.type ++
        (s.record.data.bytes.take s.record.len.toNat).flatMap hex2 ++ hex2 s.record.csum ++ [0x0D, 0x0A]

/-- 30_encoding.md R99: the EndOfFile record with its checksum is the fixed 13 codes. -/
def Obligations.EndOfFileLineIsFixed : Prop :=
  ∀ s t : State, s.record.len = 0 → s.record.offset = 0 → s.record.type = 1 → s.record.csum = 0xFF →
    exec .encode s = .next t →
      t.text.bytes.take t.tlen.toNat =
        [0x3A, 0x30, 0x30, 0x30, 0x30, 0x30, 0x30, 0x30, 0x31, 0x46, 0x46, 0x0D, 0x0A]

/-- Between the mark and CR LF, `ENCODE` emits only `'0'` to `'9'` and `'A'` to `'F'`. -/
def Obligations.EncodeEmitsOnlyUppercaseHexDigits : Prop :=
  ∀ s t : State, exec .encode s = .next t → ∀ j, 1 ≤ j → j + 2 < t.tlen.toNat →
    ∃ c : Byte, t.text.bytes[j]? = some c ∧ ((0x30 ≤ c.toNat ∧ c.toNat ≤ 0x39) ∨ (0x41 ≤ c.toNat ∧ c.toNat ≤ 0x46))

/-! ### The parser -/

/-- 30_encoding.md R94: `hexval` of a decimal digit, an uppercase and a lowercase hex digit, and none of every other code. -/
def Obligations.HexvalOfEveryCode : Prop :=
  ∀ c : Byte,
    (0x30 ≤ c.toNat ∧ c.toNat ≤ 0x39 → hexval c = some (BitVec.ofNat 4 (c.toNat - 0x30))) ∧
    (0x41 ≤ c.toNat ∧ c.toNat ≤ 0x46 → hexval c = some (BitVec.ofNat 4 (c.toNat - 0x41 + 10))) ∧
    (0x61 ≤ c.toNat ∧ c.toNat ≤ 0x66 → hexval c = some (BitVec.ofNat 4 (c.toNat - 0x61 + 10))) ∧
    (c.toNat < 0x30 ∨ (0x39 < c.toNat ∧ c.toNat < 0x41) ∨ (0x46 < c.toNat ∧ c.toNat < 0x61) ∨ 0x66 < c.toNat →
      hexval c = none)

/-- 41_transcoder.md R153 to R155: where the mark and every needed byte-pair are there, `DECODE` commits the parsed length,
offset, type, data and checksum, whatever the type and the checksum are and whatever follows the checksum pair; the data
slots from the length on, `TEXT`, `TLEN`, `CSUM_RESULT`, `CKOK` and `ESTKY` keep their values, and `ERR` and `ERRPOS` become 0. -/
def Obligations.DecodeCommitsTheParsedRecord : Prop :=
  ∀ (s : State) (ll oh ol ty cs : Byte) (d : Nat → Byte), s.tlen.toNat ≤ 523 → s.charAt 0 = some 0x3A →
    s.pairAt 1 = some ll → s.pairAt 3 = some oh → s.pairAt 5 = some ol → s.pairAt 7 = some ty →
    (∀ k, k < ll.toNat → s.pairAt (9 + 2 * k) = some (d k)) → s.pairAt (9 + 2 * ll.toNat) = some cs →
    ∃ t, exec .decode s = .next t ∧ t.record.len = ll ∧ t.record.offset.toNat = oh.toNat * 256 + ol.toNat ∧
      t.record.type = ty ∧ t.record.csum = cs ∧
      (∀ k, k < ll.toNat → t.record.data.bytes[k]? = some (d k)) ∧
      (∀ k, ll.toNat ≤ k → t.record.data.bytes[k]? = s.record.data.bytes[k]?) ∧
      t = { s with record := t.record, errpos := 0, status := { s.status with err := 0 } }

/-- 41_transcoder.md R145: with `TLEN` above 523, `DECODE` ends with `BAD_TLEN` at position 0 and reads no `TEXT` slot. -/
def Obligations.DecodeRejectsTlenAboveCapacity : Prop :=
  ∀ s : State, 523 < s.tlen.toNat → ∀ text', exec .decode { s with text := text' } =
    .next { s with text := text', status := { s.status with err := 5, estky := true }, errpos := 0 }

/-- 41_transcoder.md R146 to R149: `TLEN` above 523 is `BAD_TLEN`, before any position. Otherwise the error reported is the one
at the lowest needed position that fails: `TRUNCATED` (4) where the character is missing, otherwise `BAD_MARK` (2) at position
0 and `BAD_DIGIT` (3) elsewhere; it writes `ERR`, `ESTKY` and `ERRPOS` and nothing else. Where the positions below `11 + 2·ll`
all pass, `DECODE` succeeds, and it has read no slot but those. -/
def Obligations.DecodeReportsTheLowestFailingPosition : Prop :=
  ∀ s : State,
    (523 < s.tlen.toNat →
      exec .decode s = .next { s with status := { s.status with err := 5, estky := true }, errpos := 0 }) ∧
    (∀ p : Nat, s.tlen.toNat ≤ 523 → s.needs p → (∀ q, q < p → s.passes q = true) → s.passes p = false →
      exec .decode s =
        .next { s with
          status := { s.status with err := if s.tlen.toNat ≤ p then 4 else if p = 0 then 2 else 3, estky := true },
          errpos := BitVec.ofNat 10 p }) ∧
    ∀ ll : Byte, s.tlen.toNat ≤ 523 → s.pairAt 1 = some ll → (∀ p, p < 11 + 2 * ll.toNat → s.passes p = true) →
      ∃ t, exec .decode s = .next t ∧ t.status.err = 0 ∧
        ∀ text' : Slots 523, (∀ j, j < 11 + 2 * ll.toNat → text'.bytes[j]? = s.text.bytes[j]?) →
          exec .decode { s with text := text' } = .next { t with text := text' }

/-- 41_transcoder.md R150: `DECODE` ends with `ERR = 0` exactly when `TLEN` fits the buffer and every needed position
passes; then it writes the record register set but for the data slots from the new length on, and `ERRPOS` is 0; otherwise
none of the record register set is written. -/
def Obligations.DecodeSucceedsExactlyWhenAllPositionsPass : Prop :=
  ∀ s : State, ∃ t, exec .decode s = .next t ∧
    (t.status.err = 0 ↔ s.tlen.toNat ≤ 523 ∧ ∀ p, s.needs p → s.passes p = true) ∧
    (t.status.err = 0 → s.pairAt 1 = some t.record.len ∧ s.pairAt 7 = some t.record.type ∧
      s.pairAt 3 = some (offsetHigh t.record.offset) ∧ s.pairAt 5 = some (offsetLow t.record.offset) ∧
      (∀ k : Fin 255, k.val < t.record.len.toNat → s.pairAt (9 + 2 * k.val) = some (t.record.data.get k)) ∧
      (∀ k : Fin 255, t.record.len.toNat ≤ k.val → t.record.data.get k = s.record.data.get k) ∧
      s.pairAt (9 + 2 * t.record.len.toNat) = some t.record.csum ∧ t.errpos = 0) ∧
    (t.status.err ≠ 0 → t.record = s.record)

/-- A `TRUNCATED` error always records `ERRPOS = TLEN`. The spec's own inference, 60_exceptions.md R188: "It follows that a
`TRUNCATED` error always records `ERRPOS = TLEN`." -/
def Obligations.TruncatedRecordsTlen : Prop :=
  ∀ s t : State, exec .decode s = .next t → t.status.err = 4 → t.errpos = s.tlen

/-- 60_exceptions.md R185: a `DECODE` that ends with an error writes `ERR`, `ESTKY` and `ERRPOS`, and nothing else. -/
def Obligations.FailingDecodeWritesOnlyTheError : Prop :=
  ∀ s t : State, exec .decode s = .next t → t.status.err ≠ 0 →
    t = { s with status := { s.status with err := t.status.err, estky := true }, errpos := t.errpos } ∧
      (t.status.err = 2 ∨ t.status.err = 3 ∨ t.status.err = 4 ∨ t.status.err = 5)

/-- 41_transcoder.md R151: `DECODE` always completes, and never writes `TEXT` or `TLEN`, nor `CSUM_RESULT`, `CKOK` or the port. -/
def Obligations.DecodeCompletesAndKeepsTheLineBuffer : Prop :=
  ∀ s : State, ∃ t, exec .decode s = .next t ∧ t.text = s.text ∧ t.tlen = s.tlen ∧ t.csumResult = s.csumResult ∧
    t.status.ckok = s.status.ckok ∧ t.port = s.port

/-- `DECODE` reads no slot at or past `TLEN`, and none past the checksum pair: changing those changes nothing it writes. -/
def Obligations.DecodeReadsOnlyTheNeededCharacters : Prop :=
  ∀ (s t : State) (text' : Slots 523),
    (∀ j : Nat, j < s.tlen.toNat → (∀ ll, s.pairAt 1 = some ll → j < 11 + 2 * ll.toNat) → text'.bytes[j]? = s.text.bytes[j]?) →
    exec .decode s = .next t → exec .decode { s with text := text' } = .next { t with text := text' }

/-! ### Round trips -/

/-- Record to text to record: `ENCODE` and then `DECODE` leave the record register set, every data slot included, unchanged;
`TEXT` and `TLEN` hold what `ENCODE` wrote, and `ERR` and `ERRPOS` are 0. The spec's own inference, 41_transcoder.md R156:
"The record register set then ends unchanged". -/
def Obligations.DecodeOfEncodeIsTheSameRecord : Prop :=
  ∀ s : State, ∃ t u, exec .encode s = .next t ∧ exec .decode t = .next u ∧ u.record = s.record ∧ u.text = t.text ∧
    u.tlen = t.tlen ∧ u.status.err = 0 ∧ u.errpos = 0

/-- Text to record to text: where `TEXT[0..TLEN-1]` is the uppercase record line of some record, `DECODE` and then `ENCODE`
rewrite the same characters and the same `TLEN`. The spec's own inference, 41_transcoder.md R157: "Then `DECODE` followed by
`ENCODE` rewrites the same characters and the same `TLEN`." -/
def Obligations.EncodeOfDecodeIsTheSameLine : Prop :=
  ∀ (s : State) (r : Record), s.tlen.toNat = 13 + 2 * r.len.toNat →
    s.text.bytes.take s.tlen.toNat =
      [0x3A] ++ hex2 r.len ++ hex4 r.offset ++ hex2 r.type ++ (r.data.bytes.take r.len.toNat).flatMap hex2 ++
        hex2 r.csum ++ [0x0D, 0x0A] →
    ∃ t u, exec .decode s = .next t ∧ t.status.err = 0 ∧ exec .encode t = .next u ∧ u.text = s.text ∧ u.tlen = s.tlen

/-- Every line made by `CSUM_CALC` and `ENCODE` decodes to a record that `CSUM_CHECK` finds valid. An inference from
40_checksum.md R128 and 41_transcoder.md R156, which the spec itself marks as derived. -/
def Obligations.EmittedLineDecodesAndChecksOut : Prop :=
  ∀ s : State, ∃ t u v w, exec .csumCalc s = .next t ∧ exec .encode t = .next u ∧ exec .decode u = .next v ∧
    exec .csumCheck v = .next w ∧ v.record = t.record ∧ w.status.ckok = true ∧ w.status.err = 0

/-! ### Whole-machine rules -/

/-- The invariant holds right after every reset, whatever the unspecified items hold, and in `State.reset`. -/
def Obligations.ResetMeetsTheStatusInvariant : Prop :=
  (∀ (d : ResetDraw) (p : Port), (State.resetTo d p).Inv) ∧ State.reset.Inv

/-- Every step keeps the invariant: `ERR` is one of the codes 0 to 5, an error in `ERR` stands in `ESTKY`, and `ERRPOS` is at
most 520. An inference of the model from 60_exceptions.md R180, R186 and 41_transcoder.md R149. -/
def Obligations.EveryStepKeepsTheStatusInvariant : Prop :=
  ∀ s t : State, s.Inv → step s = .next t → t.Inv

/-- 60_exceptions.md R186: every command write that ends with `ERR ≠ 0` sets `ESTKY`; no command and no host access clears it;
reset does. -/
def Obligations.StickyErrorIsClearedOnlyByReset : Prop :=
  (∀ (s t : State) (v : Word), step (s.facing (.memWrite 0x000 .four v)) = .next t → t.status.err ≠ 0 →
    t.status.estky = true) ∧
  (∀ (s t : State), step s = .next t → s.status.estky = true → s.port.pending.head? ≠ some .reset →
    t.status.estky = true) ∧
  ∀ (s t : State), step (s.facing .reset) = .next t → t.status.estky = false

/-- `CKOK` is written by `CSUM_CHECK` (the word 2 at `CMD`) and by reset, and by nothing else. -/
def Obligations.CkokIsWrittenOnlyByCsumCheck : Prop :=
  ∀ (s t : State) (e : PortEvent), e ≠ .reset → e ≠ .memWrite 0x000 .four 2 → step (s.facing e) = .next t →
    t.status.ckok = s.status.ckok

/-- `ERRPOS` is written by `DECODE` (the word 4 at `CMD`) and by reset, and by nothing else; `CSUM_RESULT` by the two checksum
commands (the words 1 and 2) and by reset, and by nothing else. -/
def Obligations.ResultRegistersHaveTheirOwnWriters : Prop :=
  ∀ (s t : State) (e : PortEvent), e ≠ .reset → step (s.facing e) = .next t →
    (e ≠ .memWrite 0x000 .four 4 → t.errpos = s.errpos) ∧
      (e ≠ .memWrite 0x000 .four 1 → e ≠ .memWrite 0x000 .four 2 → t.csumResult = s.csumResult)

/-- 60_exceptions.md R183: every write to `CMD` completes and writes `ERR`: 0 for a legal command that completes, and in every
case a value that the `ERR` before does not affect. -/
def Obligations.EveryCommandWriteSetsErr : Prop :=
  ∀ (s : State) (v : Word), ∃ t, step (s.facing (.memWrite 0x000 .four v)) = .next t ∧
    (v = 1 ∨ v = 2 ∨ v = 3 → t.status.err = 0) ∧
    (v = 4 → t.status.err = 0 ∨ t.status.err = 2 ∨ t.status.err = 3 ∨ t.status.err = 4 ∨ t.status.err = 5) ∧
    (v ≠ 1 → v ≠ 2 → v ≠ 3 → v ≠ 4 → t.status.err = 1) ∧
    ∀ e, ∃ t', step ({ s with status.err := e }.facing (.memWrite 0x000 .four v)) = .next t' ∧
      t'.status.err = t.status.err

/-- A write to `CMD`, of a legal word or an illegal one, reads none of `STATUS`, `CSUM_RESULT` and `ERRPOS`: with any other
values in them before it, it writes the same record register set, line buffer, `TLEN`, `ERR` and answer, and the same
`CSUM_RESULT`, `CKOK` and `ERRPOS` where its command writes those; the ones it does not write keep those other values, and
`ESTKY` is set where the write ends with `ERR ≠ 0` and kept elsewhere. -/
def Obligations.CommandsReadNoStatusOrResult : Prop :=
  ∀ (s t : State) (v : Word) (st : Status) (c : Byte) (p : BitVec 10),
    step (s.facing (.memWrite 0x000 .four v)) = .next t →
      step ({ s with status := st, csumResult := c, errpos := p }.facing (.memWrite 0x000 .four v)) =
        .next { t with
          csumResult := if v = 1 ∨ v = 2 then t.csumResult else c
          errpos := if v = 4 then t.errpos else p
          status := { err := t.status.err, ckok := if v = 2 then t.status.ckok else st.ckok,
                      estky := st.estky || t.status.err != 0 } }

/-- A host that makes only legal accesses never faults the block, and no command stops it: every number of steps ends in a
next state. The spec's own inference, 70_reset_and_hazards.md R223: "So the block has no step that can hang." -/
def Obligations.LegalAccessesNeverStopTheBlock : Prop :=
  ∀ (n : Nat) (s : State), s.OnlyLegal → ∃ t, run n s = .next t ∧ t.OnlyLegal

/-- Each transaction sees the effects of every transaction before it and none after it: performing `xs` and then `n` more
steps is performing `xs` alone and going on from there with the rest. The list of events at the port is the model's (log entry
3). -/
def Obligations.TransactionsArePerformedInArrivalOrder : Prop :=
  ∀ (xs ys : List PortEvent) (n : Nat) (s : State),
    run (xs.length + n) (s.withPending (xs ++ ys)) =
      match run xs.length (s.withPending xs) with
      | .next t    => run n (t.withPending ys)
      | .fault r   => .fault r
      | .refused r => .refused r

/-! ### The platform and the host notation -/

/-- A step of one instance, a host access to one, and the platform's reset of one leave every other instance unchanged. Where
windows overlap, an access reaches only the first window that holds its address: the model's choice (log entry 6). -/
def Obligations.InstancesAreIndependent : Prop :=
  (∀ (k j : Nat) (blocks after : List State), Platform.stepAt k blocks = .next after → j ≠ k → after[j]? = blocks[j]?) ∧
  (∀ (P : Config.Platform) (adr k : Nat) (a : Offset) (mk : Offset → PortEvent) (blocks : List State) (j : Nat),
    Platform.locate P.ihxBases adr = some (k, a) → j ≠ k → (Platform.post P adr mk blocks)[j]? = blocks[j]?) ∧
  ∀ (k j : Nat) (blocks : List State), j ≠ k → (Platform.postReset k blocks)[j]? = blocks[j]?

/-- A host address reaches the offset `a` of an instance exactly where the address is its `IHX_BASE` plus `a`; an address in
no window reaches none. Taking the first of several overlapping windows is the model's choice (log entry 6). -/
def Obligations.HostAddressIsBasePlusOffset : Prop :=
  (∀ (bases : List Nat) (adr k : Nat) (a : Offset), Platform.locate bases adr = some (k, a) →
    ∃ b, bases[k]? = some b ∧ adr = b + a.toNat) ∧
  (∀ (bases : List Nat) (adr : Nat),
    Platform.locate bases adr = none ↔ ∀ b ∈ bases, ¬ (b ≤ adr ∧ adr < b + 0x2000))

/-- In every arrival order that the model admits, nothing is lost or added: what arrives is what the hosts issued, each event as
often as it was issued. Where `HOST_ORDERED_PORT` holds, each host agent's events arrive in its program order. The arrival
orders are those the model admits (log entry 7). -/
def Obligations.ArrivalKeepsEachAgentsOrder : Prop :=
  ∀ (P : Config.Platform) (programs : List (List PortEvent)) (arrived : List PortEvent), Arrives P programs arrived →
    arrived.Perm programs.flatten ∧ (P.hostOrderedPort = true → ∀ l ∈ programs, l.Sublist arrived)

/-- `load_line` of at most 523 characters puts them in the line buffer from slot 0 on, sets `TLEN` to their number, and leaves
the other slots, the record register set and the status registers alone. The line is given as character codes (log entry 12).
-/
def Obligations.LoadLineFillsTheLineBuffer : Prop :=
  ∀ (s : State) (cs : List Byte), cs.length ≤ 523 →
    ∃ t : State, run (loadLine cs).length (s.withPending (loadLine cs)) = .next t ∧
      (∀ j, j < cs.length → t.text.bytes[j]? = cs[j]?) ∧ (∀ j, cs.length ≤ j → t.text.bytes[j]? = s.text.bytes[j]?) ∧
      t.tlen.toNat = cs.length ∧ t.record = s.record ∧ t.csumResult = s.csumResult ∧ t.status = s.status ∧
      t.errpos = s.errpos

/-- `set_record` puts the length, offset, type and listed data bytes in the record register set, and leaves `REC_CSUM`, the
other slots and the rest of the block alone. -/
def Obligations.SetRecordFillsTheRecord : Prop :=
  ∀ (s : State) (ll : Byte) (oooo : Half) (tt : Byte) (d : List Byte), d.length ≤ 255 →
    ∃ t : State, run (setRecord ll oooo tt d).length (s.withPending (setRecord ll oooo tt d)) = .next t ∧
      t.record.len = ll ∧ t.record.offset = oooo ∧ t.record.type = tt ∧ t.record.csum = s.record.csum ∧
      (∀ k, k < d.length → t.record.data.bytes[k]? = d[k]?) ∧ (∀ k, d.length ≤ k → t.record.data.bytes[k]? = s.record.data.bytes[k]?) ∧
      t.text = s.text ∧ t.tlen = s.tlen ∧ t.csumResult = s.csumResult ∧ t.status = s.status ∧ t.errpos = s.errpos

/-- Each instance draws its own unspecified values: the instances stand by their own numbers after power-on, no step, access or
reset of the platform changes that, and a reset event of instance `k` takes the draw that is keyed by `k`. The keys of the
draws are the model's (log entry 2). -/
def Obligations.InstancesDrawByTheirOwnNumbers : Prop :=
  (∀ n : Nat, Platform.Numbered (Platform.powerOn n)) ∧
  (∀ (k : Nat) (blocks after : List State), Platform.Numbered blocks → Platform.stepAt k blocks = .next after →
    Platform.Numbered after) ∧
  (∀ (P : Config.Platform) (adr : Nat) (mk : Offset → PortEvent) (blocks : List State), Platform.Numbered blocks →
    Platform.Numbered (Platform.post P adr mk blocks)) ∧
  (∀ (k : Nat) (blocks : List State), Platform.Numbered blocks → Platform.Numbered (Platform.postReset k blocks)) ∧
  ∀ (k : Nat) (blocks : List State) (s : State) (rest : List PortEvent), Platform.Numbered blocks → blocks[k]? = some s →
    s.port.pending = .reset :: rest →
      ∃ t, Platform.stepAt k blocks = .next (blocks.set k t) ∧ t.record = (ResetDraw.free k s.port.resets).record ∧
        t.text = (ResetDraw.free k s.port.resets).text ∧ t.tlen = (ResetDraw.free k s.port.resets).tlen

/-- After `ENCODE` the first `TLEN` characters are a record line, whatever the record's type and checksum are, and they are a
well-formed line exactly where the record's stored checksum is correct. That the checksum digits of a well-formed line are
the correct ones is the model's reading of 30_encoding.md R100 (log entry 14). -/
def Obligations.WellFormedLinesComeOnlyFromValidRecords : Prop :=
  ∀ s t : State, exec .encode s = .next t →
    RecordLine (t.text.bytes.take t.tlen.toNat) ∧
      (WellFormedLine (t.text.bytes.take t.tlen.toNat) ↔ (s.record.sum8 + s.record.csum.toNat) % 256 = 0)
end

