-- ==== Sys2Proof/Laws/Text.lean ====
section
/-! SUPPORT. The text primitives (30_encoding.md R91 to R94) and slot writes (41_transcoder.md R141, R152). -/

namespace Sys2Proof

/-! ### Slots -/

@[ext] theorem Slots.ext {n : Nat} {s t : Slots n} (h : s.bytes = t.bytes) : s = t := by
  cases s
  cases t
  simpa using h

@[simp] theorem Slots.length_bytes {n : Nat} (s : Slots n) : s.bytes.length = n := s.size

/-- Slot `k` stands at place `k` of the bytes. -/
@[simp] theorem Slots.getElem?_bytes {n : Nat} (s : Slots n) (k : Fin n) : s.bytes[k.val]? = some (s.get k) := by
  rw [List.getElem?_eq_getElem (by rw [s.size]; exact k.isLt)]
  rfl

@[simp] theorem Slots.bytes_set {n : Nat} (s : Slots n) (k : Fin n) (b : Byte) : (s.set k b).bytes = s.bytes.set k.val b := rfl

@[simp] theorem Slots.get_set_self {n : Nat} (s : Slots n) (k : Fin n) (b : Byte) : (s.set k b).get k = b := by
  simp [Slots.get]

@[simp] theorem Slots.set_set {n : Nat} (s : Slots n) (k : Fin n) (b c : Byte) : (s.set k b).set k c = s.set k c :=
  Slots.ext (by simp)

theorem Slots.get_set_ne {n : Nat} (s : Slots n) {k j : Fin n} (b : Byte) (h : k ≠ j) : (s.set k b).get j = s.get j := by
  have : k.val ≠ j.val := fun he => h (Fin.ext he)
  simp [Slots.get, this]

end Sys2Proof

namespace Sys2Proof.Machine

/-! ### Hex digits -/

@[simp] theorem hexval_hexchar (n : BitVec 4) : hexval (hexchar n) = some n := by
  revert n; decide

@[simp] theorem byteOfDigits_nibbles (v : Byte) : byteOfDigits (highNibble v) (lowNibble v) = v := by
  revert v; decide

theorem highNibble_byteOfDigits (hi lo : BitVec 4) : highNibble (byteOfDigits hi lo) = hi := by
  revert hi lo; decide

theorem lowNibble_byteOfDigits (hi lo : BitVec 4) : lowNibble (byteOfDigits hi lo) = lo := by
  revert hi lo; decide

theorem offsetHigh_toNat (o : Half) : (offsetHigh o).toNat = o.toNat / 256 := by
  have := o.isLt
  simp [offsetHigh, BitVec.extractLsb'_toNat, Nat.shiftRight_eq_div_pow]
  omega

theorem offsetLow_toNat (o : Half) : (offsetLow o).toNat = o.toNat % 256 := by
  simp [offsetLow, BitVec.extractLsb'_toNat]

theorem halfOfBytes_toNat (hi lo : Byte) : (halfOfBytes hi lo).toNat = hi.toNat * 256 + lo.toNat := by
  have h1 := hi.isLt
  have h2 := lo.isLt
  simp [halfOfBytes, BitVec.toNat_ofNat]
  omega

@[simp] theorem halfOfBytes_offset (o : Half) : halfOfBytes (offsetHigh o) (offsetLow o) = o := by
  apply BitVec.eq_of_toNat_eq
  rw [halfOfBytes_toNat, offsetHigh_toNat, offsetLow_toNat]
  omega

theorem offsetHigh_halfOfBytes (hi lo : Byte) : offsetHigh (halfOfBytes hi lo) = hi := by
  apply BitVec.eq_of_toNat_eq
  have := lo.isLt
  rw [offsetHigh_toNat, halfOfBytes_toNat]
  omega

theorem offsetLow_halfOfBytes (hi lo : Byte) : offsetLow (halfOfBytes hi lo) = lo := by
  apply BitVec.eq_of_toNat_eq
  have := lo.isLt
  rw [offsetLow_toNat, halfOfBytes_toNat]
  omega

@[simp] theorem hex2_length (v : Byte) : (hex2 v).length = 2 := rfl

@[simp] theorem hex4_length (v : Half) : (hex4 v).length = 4 := rfl

/-! ### Slot writes -/

theorem overwriteList_getElem? (old new : List Byte) (i : Nat) :
    (overwriteList old new)[i]? = if i < new.length ∧ i < old.length then new[i]? else old[i]? := by
  induction old generalizing new i with
  | nil => simp [overwriteList]
  | cons a old ih =>
    cases new with
    | nil => simp [overwriteList]
    | cons b bs => cases i <;> simp [overwriteList, ih]

/-- All that a slot write does: places below the length of `new` take its bytes, the others keep theirs. -/
theorem overwrite_getElem? {n : Nat} (slots : Slots n) (new : List Byte) (i : Nat) :
    (overwrite slots new).bytes[i]? = if i < new.length ∧ i < n then new[i]? else slots.bytes[i]? := by
  have := overwriteList_getElem? slots.bytes new i
  rwa [slots.size] at this

@[simp] theorem overwrite_bytes {n : Nat} (slots : Slots n) (new : List Byte) :
    (overwrite slots new).bytes = overwriteList slots.bytes new := rfl

theorem overwriteList_take (old new : List Byte) (h : new.length ≤ old.length) :
    (overwriteList old new).take new.length = new := by
  induction old generalizing new with
  | nil => cases new <;> simp_all [overwriteList]
  | cons a old ih => cases new <;> simp_all [overwriteList]

/-- Writing back the bytes that already stand there changes nothing. -/
theorem overwriteList_self (old : List Byte) (m : Nat) : overwriteList old (old.take m) = old := by
  induction old generalizing m with
  | nil => rfl
  | cons a old ih => cases m <;> simp [overwriteList, ih]

theorem overwrite_self {n : Nat} (slots : Slots n) (m : Nat) : overwrite slots (slots.bytes.take m) = slots :=
  Slots.ext (overwriteList_self slots.bytes m)

/-! ### The record line -/

@[simp] theorem Record.dataBytes_length (r : Record) : r.dataBytes.length = r.len.toNat := by
  have := r.len.isLt
  rw [Record.dataBytes, List.length_take, r.data.size]
  unfold Config.dataCap
  omega

theorem flatMap_hex2_length (bs : List Byte) : (bs.flatMap hex2).length = 2 * bs.length := by
  induction bs with
  | nil => rfl
  | cons b bs ih => simp [ih]; omega

/-- A record line has `13 + 2·LL` characters (00_scope.md R11). -/
@[simp] theorem Record.lineText_length (r : Record) : r.lineText.length = 13 + 2 * r.len.toNat := by
  simp only [Record.lineText, List.length_cons, List.length_append, hex2_length, hex4_length, flatMap_hex2_length,
    Record.dataBytes_length, List.length_nil]
  omega

/-- It fits the line buffer (00_scope.md R12, 41_transcoder.md R143). -/
theorem Record.lineText_fits (r : Record) : r.lineText.length ≤ Config.textCap := by
  have := r.len.isLt
  rw [Record.lineText_length]
  unfold Config.textCap
  omega

end Sys2Proof.Machine
end

