-- ==== Sys2Proof/Laws/Checksum.lean ====
section
/-! SUPPORT. The checksum function (40_checksum.md R120 to R124). -/

namespace Sys2Proof.Machine

theorem Record.sum8_lt (r : Record) : r.sum8 < 256 := Nat.mod_lt _ (by omega)

theorem Record.checksum_toNat (r : Record) : r.checksum.toNat = (256 - r.sum8) % 256 := by
  simp [Record.checksum, BitVec.toNat_ofNat]

/-- `csum()` is the only byte that brings the sum to 0 modulo 256 (40_checksum.md R121). -/
theorem Record.checksum_unique (r : Record) (c : Byte) : (r.sum8 + c.toNat) % 256 = 0 ↔ r.checksum = c := by
  have h1 := r.sum8_lt
  have h2 := c.isLt
  rw [← BitVec.toNat_inj, Record.checksum_toNat]
  omega

/-- The checksum does not read the stored one (40_checksum.md R120). -/
@[simp] theorem Record.checksum_withCsum (r : Record) (c : Byte) : ({ r with csum := c } : Record).checksum = r.checksum :=
  rfl

/-- The sum of the first `m` bytes as a sum over all slots. -/
theorem sum_take_eq (bs : List Byte) (m : Nat) :
    ((bs.take m).map (·.toNat)).sum = ∑ k : Fin bs.length, if k.val < m then bs[k].toNat else 0 := by
  induction bs generalizing m with
  | nil => simp
  | cons b bs ih =>
    cases m with
    | zero => simp
    | succ m =>
      simp only [List.take_succ_cons, List.map_cons, List.sum_cons, ih, List.length_cons]
      rw [Fin.sum_univ_succ]
      simp

/-- The data bytes' sum, slot by slot: exactly `REC_LEN` of them (40_checksum.md R120). -/
theorem Record.sum_dataBytes (r : Record) :
    (r.dataBytes.map (·.toNat)).sum =
      ∑ k : Fin Config.dataCap, if k.val < r.len.toNat then (r.data.get k).toNat else 0 := by
  rw [Record.dataBytes, sum_take_eq]
  exact Fintype.sum_equiv (finCongr r.data.size) _ _ (fun k => by simp [Slots.get])

/-- `sum8` as 40_checksum.md R120 prints it. -/
theorem Record.sum8_eq (r : Record) :
    r.sum8 = (r.len.toNat + r.offset.toNat / 256 + r.offset.toNat % 256 + r.type.toNat +
      ∑ k : Fin Config.dataCap, if k.val < r.len.toNat then (r.data.get k).toNat else 0) % 256 := by
  rw [Record.sum8, Record.sum_dataBytes, offsetHigh_toNat, offsetLow_toNat]

/-- An 8-bit wrapping accumulator keeps the sum modulo 256 (40_checksum.md R122). -/
theorem foldl_add_toNat (bs : List Byte) (a : Byte) :
    (bs.foldl (· + ·) a).toNat = (a.toNat + (bs.map (·.toNat)).sum) % 256 := by
  induction bs generalizing a with
  | nil => have := a.isLt; simp; omega
  | cons b bs ih => simp [ih, BitVec.toNat_add]; omega

/-- The data bytes depend on the length and the slots below it only (10_state.md R25). -/
theorem Record.dataBytes_congr {r r' : Record} (hl : r'.len = r.len)
    (hd : ∀ k : Fin Config.dataCap, k.val < r.len.toNat → r'.data.get k = r.data.get k) : r'.dataBytes = r.dataBytes := by
  have hlt := r.len.isLt
  simp only [Record.dataBytes, hl]
  apply List.ext_getElem?
  intro i
  simp only [List.getElem?_take]
  split
  · have hi : i < Config.dataCap := by unfold Config.dataCap; omega
    have h := hd ⟨i, hi⟩ (by simpa)
    have g := fun q : Record => Slots.getElem?_bytes q.data ⟨i, hi⟩
    exact (g r').trans ((congrArg some h).trans (g r).symm)
  · rfl

end Sys2Proof.Machine
end

