-- ==== Sys2Proof/Laws/Decode.lean ====
section
/-! SUPPORT. The command-word decoder by number (30_encoding.md R80 to R83). -/

namespace Sys2Proof

theorem rsvdField_eq_zero (v : Word) : rsvdField v = 0 ↔ v.toNat / 16 = 0 := by
  have := v.isLt
  have h0 : (0 : BitVec 28).toNat = 0 := rfl
  rw [← BitVec.toNat_inj, h0]
  simp only [rsvdField, BitVec.extractLsb'_toNat, Nat.shiftRight_eq_div_pow]
  omega

theorem opField_toNat (v : Word) : (opField v).toNat = v.toNat % 16 := by
  simp [opField, BitVec.extractLsb'_toNat]

/-- Everything the decoder answers: the command of the word's number, for numbers 1 to 4 only. -/
theorem decodeWord_eq (v : Word) :
    decodeWord v = if v.toNat / 16 ≠ 0 then .error .reservedBits else
      match v.toNat % 16 with
      | 1 => .ok .csumCalc
      | 2 => .ok .csumCheck
      | 3 => .ok .encode
      | 4 => .ok .decode
      | _ => .error .unassignedOp := by
  unfold decodeWord instrOfOp
  rw [opField_toNat]
  by_cases h : v.toNat / 16 = 0
  · rw [if_pos ((rsvdField_eq_zero v).mpr h), if_neg (by simpa using h)]
    have hlt : v.toNat % 16 < 16 := Nat.mod_lt _ (by omega)
    generalize v.toNat % 16 = n at hlt
    interval_cases n <;> rfl
  · rw [if_neg (fun hr => h ((rsvdField_eq_zero v).mp hr)), if_pos h]

/-- The number of a word decides whether it is illegal (30_encoding.md R82). -/
theorem decodeWord_error_iff (v : Word) :
    (∃ x, decodeWord v = .error x) ↔ v.toNat / 16 ≠ 0 ∨ v.toNat % 16 = 0 ∨ 5 ≤ v.toNat % 16 := by
  rw [decodeWord_eq]
  by_cases h : v.toNat / 16 = 0
  · rw [if_neg (by simpa using h)]
    have hlt : v.toNat % 16 < 16 := Nat.mod_lt _ (by omega)
    generalize v.toNat % 16 = n at hlt
    interval_cases n <;> simp [h]
  · rw [if_pos h]
    exact ⟨fun _ => .inl h, fun _ => ⟨_, rfl⟩⟩

/-- A legal word is the word of its command (30_encoding.md R81). -/
theorem eq_encode_of_decodeWord {v : Word} {i : Instr} (h : decodeWord v = .ok i) : v = encode i := by
  rw [decodeWord_eq] at h
  by_cases h0 : v.toNat / 16 = 0
  · rw [if_neg (by simpa using h0)] at h
    apply BitVec.eq_of_toNat_eq
    split at h <;> cases h
    all_goals simp [encode]; omega
  · rw [if_pos h0] at h
    cases h

end Sys2Proof
end

