-- ==== Sys2Proof/Laws/State.lean ====
section
/-! SUPPORT. One lemma a field for each named update of State, each true by rfl, so that no later proof unfolds a record
update; the same for the `STATUS` field writes and the reset state. -/

namespace Sys2Proof.Machine

/-! ### `State.withPending` -/

@[simp] theorem State.withPending_record (s : State) (es : List PortEvent) : (s.withPending es).record = s.record := rfl
@[simp] theorem State.withPending_text (s : State) (es : List PortEvent) : (s.withPending es).text = s.text := rfl
@[simp] theorem State.withPending_tlen (s : State) (es : List PortEvent) : (s.withPending es).tlen = s.tlen := rfl
@[simp] theorem State.withPending_csumResult (s : State) (es : List PortEvent) : (s.withPending es).csumResult = s.csumResult := rfl
@[simp] theorem State.withPending_status (s : State) (es : List PortEvent) : (s.withPending es).status = s.status := rfl
@[simp] theorem State.withPending_errpos (s : State) (es : List PortEvent) : (s.withPending es).errpos = s.errpos := rfl
@[simp] theorem State.withPending_port (s : State) (es : List PortEvent) : (s.withPending es).port = { s.port with pending := es } := rfl

/-! ### `State.facing` -/

@[simp] theorem State.facing_record (s : State) (e : PortEvent) : (s.facing e).record = s.record := rfl
@[simp] theorem State.facing_text (s : State) (e : PortEvent) : (s.facing e).text = s.text := rfl
@[simp] theorem State.facing_tlen (s : State) (e : PortEvent) : (s.facing e).tlen = s.tlen := rfl
@[simp] theorem State.facing_csumResult (s : State) (e : PortEvent) : (s.facing e).csumResult = s.csumResult := rfl
@[simp] theorem State.facing_status (s : State) (e : PortEvent) : (s.facing e).status = s.status := rfl
@[simp] theorem State.facing_errpos (s : State) (e : PortEvent) : (s.facing e).errpos = s.errpos := rfl
@[simp] theorem State.facing_port (s : State) (e : PortEvent) :
    (s.facing e).port = { s.port with pending := e :: s.port.pending } := rfl

/-! ### `State.accept` -/

@[simp] theorem State.accept_record (s : State) (es : List PortEvent) : (s.accept es).record = s.record := rfl
@[simp] theorem State.accept_text (s : State) (es : List PortEvent) : (s.accept es).text = s.text := rfl
@[simp] theorem State.accept_tlen (s : State) (es : List PortEvent) : (s.accept es).tlen = s.tlen := rfl
@[simp] theorem State.accept_csumResult (s : State) (es : List PortEvent) : (s.accept es).csumResult = s.csumResult := rfl
@[simp] theorem State.accept_status (s : State) (es : List PortEvent) : (s.accept es).status = s.status := rfl
@[simp] theorem State.accept_errpos (s : State) (es : List PortEvent) : (s.accept es).errpos = s.errpos := rfl
@[simp] theorem State.accept_port (s : State) (es : List PortEvent) :
    (s.accept es).port = { s.port with pending := es, response := .none } := rfl

/-! ### `State.respond` -/

@[simp] theorem State.respond_record (s : State) (r : PortResponse) : (s.respond r).record = s.record := rfl
@[simp] theorem State.respond_text (s : State) (r : PortResponse) : (s.respond r).text = s.text := rfl
@[simp] theorem State.respond_tlen (s : State) (r : PortResponse) : (s.respond r).tlen = s.tlen := rfl
@[simp] theorem State.respond_csumResult (s : State) (r : PortResponse) : (s.respond r).csumResult = s.csumResult := rfl
@[simp] theorem State.respond_status (s : State) (r : PortResponse) : (s.respond r).status = s.status := rfl
@[simp] theorem State.respond_errpos (s : State) (r : PortResponse) : (s.respond r).errpos = s.errpos := rfl
@[simp] theorem State.respond_port (s : State) (r : PortResponse) : (s.respond r).port = { s.port with response := r } := rfl

/-! ### `State.reportError` -/

@[simp] theorem State.reportError_record (s : State) (c : ErrCode) : (s.reportError c).record = s.record := rfl
@[simp] theorem State.reportError_text (s : State) (c : ErrCode) : (s.reportError c).text = s.text := rfl
@[simp] theorem State.reportError_tlen (s : State) (c : ErrCode) : (s.reportError c).tlen = s.tlen := rfl
@[simp] theorem State.reportError_csumResult (s : State) (c : ErrCode) : (s.reportError c).csumResult = s.csumResult := rfl
@[simp] theorem State.reportError_status (s : State) (c : ErrCode) : (s.reportError c).status = s.status.fail c := rfl
@[simp] theorem State.reportError_errpos (s : State) (c : ErrCode) : (s.reportError c).errpos = s.errpos := rfl
@[simp] theorem State.reportError_port (s : State) (c : ErrCode) : (s.reportError c).port = s.port := rfl

/-! ### `State.illegalCommand` -/

@[simp] theorem State.illegalCommand_record (s : State) : (s.illegalCommand).record = s.record := rfl
@[simp] theorem State.illegalCommand_text (s : State) : (s.illegalCommand).text = s.text := rfl
@[simp] theorem State.illegalCommand_tlen (s : State) : (s.illegalCommand).tlen = s.tlen := rfl
@[simp] theorem State.illegalCommand_csumResult (s : State) : (s.illegalCommand).csumResult = s.csumResult := rfl
@[simp] theorem State.illegalCommand_status (s : State) : (s.illegalCommand).status = s.status.fail .illegalCmd := rfl
@[simp] theorem State.illegalCommand_errpos (s : State) : (s.illegalCommand).errpos = s.errpos := rfl
@[simp] theorem State.illegalCommand_port (s : State) : (s.illegalCommand).port = s.port := rfl

/-! ### `State.raiseDecodeError` -/

@[simp] theorem State.raiseDecodeError_record (s : State) (e : DecodeError) : (s.raiseDecodeError e).record = s.record := rfl
@[simp] theorem State.raiseDecodeError_text (s : State) (e : DecodeError) : (s.raiseDecodeError e).text = s.text := rfl
@[simp] theorem State.raiseDecodeError_tlen (s : State) (e : DecodeError) : (s.raiseDecodeError e).tlen = s.tlen := rfl
@[simp] theorem State.raiseDecodeError_csumResult (s : State) (e : DecodeError) : (s.raiseDecodeError e).csumResult = s.csumResult := rfl
@[simp] theorem State.raiseDecodeError_status (s : State) (e : DecodeError) : (s.raiseDecodeError e).status = s.status.fail e.code := rfl
@[simp] theorem State.raiseDecodeError_errpos (s : State) (e : DecodeError) : (s.raiseDecodeError e).errpos = BitVec.ofNat 10 e.pos := rfl
@[simp] theorem State.raiseDecodeError_port (s : State) (e : DecodeError) : (s.raiseDecodeError e).port = s.port := rfl

/-! ### `State.commitRecord` -/

@[simp] theorem State.commitRecord_record (s : State) (p : ParsedRecord) :
    (s.commitRecord p).record =
      { len := p.len, offset := p.offset, type := p.type, csum := p.csum, data := overwrite s.record.data p.data } := rfl
@[simp] theorem State.commitRecord_text (s : State) (p : ParsedRecord) : (s.commitRecord p).text = s.text := rfl
@[simp] theorem State.commitRecord_tlen (s : State) (p : ParsedRecord) : (s.commitRecord p).tlen = s.tlen := rfl
@[simp] theorem State.commitRecord_csumResult (s : State) (p : ParsedRecord) : (s.commitRecord p).csumResult = s.csumResult := rfl
@[simp] theorem State.commitRecord_status (s : State) (p : ParsedRecord) : (s.commitRecord p).status = s.status.setOk := rfl
@[simp] theorem State.commitRecord_errpos (s : State) (p : ParsedRecord) : (s.commitRecord p).errpos = 0 := rfl
@[simp] theorem State.commitRecord_port (s : State) (p : ParsedRecord) : (s.commitRecord p).port = s.port := rfl

/-! ### The reset state -/

@[simp] theorem State.resetTo_record (d : ResetDraw) (p : Port) : (State.resetTo d p).record = d.record := rfl
@[simp] theorem State.resetTo_text (d : ResetDraw) (p : Port) : (State.resetTo d p).text = d.text := rfl
@[simp] theorem State.resetTo_tlen (d : ResetDraw) (p : Port) : (State.resetTo d p).tlen = d.tlen := rfl
@[simp] theorem State.resetTo_csumResult (d : ResetDraw) (p : Port) : (State.resetTo d p).csumResult = 0 := rfl
@[simp] theorem State.resetTo_status (d : ResetDraw) (p : Port) : (State.resetTo d p).status = { err := 0, ckok := false, estky := false } := rfl
@[simp] theorem State.resetTo_errpos (d : ResetDraw) (p : Port) : (State.resetTo d p).errpos = 0 := rfl
@[simp] theorem State.resetTo_port (d : ResetDraw) (p : Port) : (State.resetTo d p).port = p := rfl

/-- The platform's reset is a reset to a draw (10_state.md R37). -/
theorem State.platformReset_eq (s : State) :
    s.platformReset = State.resetTo (ResetDraw.free s.port.block s.port.resets) { s.port with resets := s.port.resets + 1 } := rfl

/-! ### `Status` -/

@[simp] theorem Status.setOk_err (st : Status) : (st.setOk).err = 0 := rfl
@[simp] theorem Status.setOk_ckok (st : Status) : (st.setOk).ckok = st.ckok := rfl
@[simp] theorem Status.setOk_estky (st : Status) : (st.setOk).estky = st.estky := rfl
@[simp] theorem Status.fail_err (st : Status) (c : ErrCode) : (st.fail c).err = c.value := rfl
@[simp] theorem Status.fail_ckok (st : Status) (c : ErrCode) : (st.fail c).ckok = st.ckok := rfl
@[simp] theorem Status.fail_estky (st : Status) (c : ErrCode) : (st.fail c).estky = true := rfl
@[simp] theorem Status.setCkok_err (st : Status) (b : Bool) : (st.setCkok b).err = st.err := rfl
@[simp] theorem Status.setCkok_ckok (st : Status) (b : Bool) : (st.setCkok b).ckok = b := rfl
@[simp] theorem Status.setCkok_estky (st : Status) (b : Bool) : (st.setCkok b).estky = st.estky := rfl

/-! ### Updates in a row -/

/-- Taking the event that faces the block leaves what was pending before it. -/
@[simp] theorem State.accept_facing (s : State) (e : PortEvent) :
    (s.facing e).accept s.port.pending = s.respond .none := rfl

@[simp] theorem State.respond_respond (s : State) (q r : PortResponse) : (s.respond q).respond r = s.respond r := rfl

@[simp] theorem State.withPending_withPending (s : State) (es fs : List PortEvent) :
    (s.withPending es).withPending fs = s.withPending fs := rfl

/-- Every state with something pending faces its oldest event. -/
theorem State.eq_facing {s : State} {e : PortEvent} {rest : List PortEvent} (h : s.port.pending = e :: rest) :
    s = (s.withPending rest).facing e := by
  obtain ⟨record, text, tlen, csumResult, status, errpos, pending, response, block, resets⟩ := s
  cases h
  rfl

end Sys2Proof.Machine
end

