-- ==== Sys2Proof/Laws/Encode.lean ====
section
/-! SUPPORT. Where `ENCODE` writes what (41_transcoder.md R140, 30_encoding.md R97), and what stands in the line buffer after
it. -/

namespace Sys2Proof.Machine

/-- The fixed head of a record line. -/
theorem Record.lineText_head (r : Record) (i : Nat) (h : i < 9) :
    r.lineText[i]? = ([codeColon, hexchar (highNibble r.len), hexchar (lowNibble r.len),
      hexchar (highNibble (offsetHigh r.offset)), hexchar (lowNibble (offsetHigh r.offset)),
      hexchar (highNibble (offsetLow r.offset)), hexchar (lowNibble (offsetLow r.offset)),
      hexchar (highNibble r.type), hexchar (lowNibble r.type)])[i]? := by
  rw [show r.lineText = [codeColon, hexchar (highNibble r.len), hexchar (lowNibble r.len),
      hexchar (highNibble (offsetHigh r.offset)), hexchar (lowNibble (offsetHigh r.offset)),
      hexchar (highNibble (offsetLow r.offset)), hexchar (lowNibble (offsetLow r.offset)),
      hexchar (highNibble r.type), hexchar (lowNibble r.type)] ++
        (r.dataBytes.flatMap hex2 ++ (hex2 r.csum ++ [codeCR, codeLF])) by simp [Record.lineText, hex2, hex4]]
  rw [List.getElem?_append_left (by simpa using h)]

/-- What follows the head: the data pairs, the checksum pair and CR LF. -/
theorem Record.lineText_tail (r : Record) (i : Nat) :
    r.lineText[9 + i]? = (r.dataBytes.flatMap hex2 ++ (hex2 r.csum ++ [codeCR, codeLF]))[i]? := by
  have h : r.lineText = (codeColon :: hex2 r.len ++ hex4 r.offset ++ hex2 r.type) ++
      (r.dataBytes.flatMap hex2 ++ (hex2 r.csum ++ [codeCR, codeLF])) := by simp [Record.lineText]
  rw [h, List.getElem?_append_right (by simp)]
  simp

theorem flatMap_hex2_getElem? (bs : List Byte) (k : Nat) (h : k < bs.length) :
    (bs.flatMap hex2)[2 * k]? = some (hexchar (highNibble bs[k])) ∧
      (bs.flatMap hex2)[2 * k + 1]? = some (hexchar (lowNibble bs[k])) := by
  induction bs generalizing k with
  | nil => simp at h
  | cons b bs ih =>
    cases k with
    | zero => simp [hex2]
    | succ k =>
      have := ih k (by simpa using h)
      simpa [hex2, Nat.mul_add] using this

/-- The data pair of byte `k` stands at `9+2k` and `10+2k` (30_encoding.md R97). -/
theorem Record.lineText_data (r : Record) (k : Nat) (h : k < r.dataBytes.length) :
    r.lineText[9 + 2 * k]? = some (hexchar (highNibble r.dataBytes[k])) ∧
      r.lineText[10 + 2 * k]? = some (hexchar (lowNibble r.dataBytes[k])) := by
  have hl : 2 * k + 1 < (r.dataBytes.flatMap hex2).length := by rw [flatMap_hex2_length]; omega
  rw [show 10 + 2 * k = 9 + (2 * k + 1) by omega, Record.lineText_tail, Record.lineText_tail,
    List.getElem?_append_left (by omega), List.getElem?_append_left hl]
  exact flatMap_hex2_getElem? _ _ h

/-- The checksum pair and CR LF stand after the data (30_encoding.md R97). -/
theorem Record.lineText_end (r : Record) :
    r.lineText[9 + 2 * r.len.toNat]? = some (hexchar (highNibble r.csum)) ∧
      r.lineText[10 + 2 * r.len.toNat]? = some (hexchar (lowNibble r.csum)) ∧
      r.lineText[11 + 2 * r.len.toNat]? = some codeCR ∧ r.lineText[12 + 2 * r.len.toNat]? = some codeLF := by
  have hl : (r.dataBytes.flatMap hex2).length = 2 * r.len.toNat := by
    rw [flatMap_hex2_length, Record.dataBytes_length]
  have h : ∀ i, r.lineText[9 + (2 * r.len.toNat + i)]? = (hex2 r.csum ++ [codeCR, codeLF])[i]? := fun i => by
    rw [Record.lineText_tail, List.getElem?_append_right (by omega), hl, Nat.add_sub_cancel_left]
  refine ⟨h 0, ?_, ?_, ?_⟩
  · rw [show 10 + 2 * r.len.toNat = 9 + (2 * r.len.toNat + 1) by omega]; exact h 1
  · rw [show 11 + 2 * r.len.toNat = 9 + (2 * r.len.toNat + 2) by omega]; exact h 2
  · rw [show 12 + 2 * r.len.toNat = 9 + (2 * r.len.toNat + 3) by omega]; exact h 3

/-- The data byte `k` is the slot `DATA[k]` (10_state.md R25). -/
theorem Record.dataBytes_getElem? (r : Record) (k : Nat) :
    r.dataBytes[k]? = if k < r.len.toNat then r.data.bytes[k]? else none := by
  simp only [Record.dataBytes, List.getElem?_take]

/-- Every character between the mark and CR LF is an uppercase hex digit (30_encoding.md R91). -/
theorem Record.lineText_digit (r : Record) (j : Nat) (h1 : 1 ≤ j) (h2 : j < 11 + 2 * r.len.toNat) :
    ∃ n, r.lineText[j]? = some (hexchar n) := by
  have hb : ∀ (bs : List Byte) (i : Nat), i < (bs.flatMap hex2).length → ∃ n, (bs.flatMap hex2)[i]? = some (hexchar n) := by
    intro bs i hi
    rw [flatMap_hex2_length] at hi
    have := flatMap_hex2_getElem? bs (i / 2) (by omega)
    rcases Nat.mod_two_eq_zero_or_one i with h | h
    · exact ⟨_, by rw [show i = 2 * (i / 2) by omega]; exact this.1⟩
    · exact ⟨_, by rw [show i = 2 * (i / 2) + 1 by omega]; exact this.2⟩
  have hw : r.lineText = codeColon :: (([r.len, offsetHigh r.offset, offsetLow r.offset, r.type] ++ r.dataBytes ++
      [r.csum]).flatMap hex2 ++ [codeCR, codeLF]) := by simp [Record.lineText, hex4]
  obtain ⟨i, rfl⟩ : ∃ i, j = i + 1 := ⟨j - 1, by omega⟩
  rw [hw, List.getElem?_cons_succ, List.getElem?_append_left]
  · exact hb _ i (by rw [flatMap_hex2_length]; simp; omega)
  · rw [flatMap_hex2_length]; simp; omega

/-! ### After `ENCODE` -/

theorem tlen_of_len (l : Byte) : (BitVec.ofNat 10 (13 + 2 * l.toNat)).toNat = 13 + 2 * l.toNat := by
  have := l.isLt
  simp only [BitVec.toNat_ofNat]
  omega

/-- The line buffer holds the record line up to `TLEN` (41_transcoder.md R141). -/
theorem execEncode_line {s t : State} (h : execEncode s = .next t) :
    t.line = s.record.lineText ∧ t.tlen.toNat = 13 + 2 * s.record.len.toNat := by
  cases h
  refine ⟨?_, tlen_of_len _⟩
  simp only [State.line, tlen_of_len, overwrite_bytes]
  rw [← Record.lineText_length, overwriteList_take]
  have := s.record.lineText_fits
  simpa using this

/-- Every slot below the line's length holds the line's character. -/
theorem overwrite_lineText (s : State) (j : Nat) (h : j < 13 + 2 * s.record.len.toNat) :
    (overwrite s.text s.record.lineText).bytes[j]? = s.record.lineText[j]? := by
  have := s.record.lineText_fits
  rw [overwrite_getElem?, if_pos]
  rw [Record.lineText_length] at *
  exact ⟨h, by omega⟩

end Sys2Proof.Machine
end

