-- ==== Sys2Proof/Laws/Parse.lean ====
section
/-! SUPPORT. The parser of `DECODE` (41_transcoder.md R144 to R149): what a parse that answers has read, which error it
raises, and that it reads back every record line. -/

namespace Sys2Proof.Machine

/-! ### Peeling a parse apart -/

theorem except_bind_ok {ε α β : Type} {x : Except ε α} {f : α → Except ε β} {b : β} :
    (x >>= f) = .ok b ↔ ∃ a, x = .ok a ∧ f a = .ok b := by
  cases x <;> simp [bind, Except.bind]

theorem except_bind_error {ε α β : Type} {x : Except ε α} {f : α → Except ε β} {e : ε} :
    (x >>= f) = .error e ↔ x = .error e ∨ ∃ a, x = .ok a ∧ f a = .error e := by
  cases x <;> simp [bind, Except.bind]

/-! ### Positions that pass -/

/-- Position `p` of `chars` passes its presence and character checks (41_transcoder.md R146 to R148). -/
def charPasses (chars : List Byte) (p : Nat) : Bool :=
  match chars[p]? with
  | none   => false
  | some c => if p = 0 then c == codeColon else (hexval c).isSome

/-- The error a failing position raises (41_transcoder.md R149). -/
def failureAt (chars : List Byte) (p : Nat) : DecodeError where
  code := if chars.length ≤ p then .truncated else if p = 0 then .badMark else .badDigit
  pos  := p

/-- `x` examined the positions from `lo` up to `hi` in increasing order: it answered after all passed, or it stopped at the
first that does not (41_transcoder.md R149). -/
def Examines {α : Type} (chars : List Byte) (x : Except DecodeError α) (lo hi : Nat) : Prop :=
  match x with
  | .ok _    => ∀ q, lo ≤ q → q < hi → charPasses chars q = true
  | .error e => lo ≤ e.pos ∧ e.pos < hi ∧ (∀ q, lo ≤ q → q < e.pos → charPasses chars q = true) ∧
      charPasses chars e.pos = false ∧ e = failureAt chars e.pos

theorem Examines.bind {α β : Type} {chars : List Byte} {x : Except DecodeError α} {f : α → Except DecodeError β}
    {lo mid hi : Nat} (hx : Examines chars x lo mid) (hm : lo ≤ mid ∧ mid ≤ hi)
    (hf : ∀ a, x = .ok a → Examines chars (f a) mid hi) : Examines chars (x >>= f) lo hi := by
  cases x with
  | error e =>
    obtain ⟨h1, h2, h3⟩ := hx
    exact ⟨h1, by omega, h3⟩
  | ok a =>
    have hfa := hf a rfl
    show Examines chars (f a) lo hi
    revert hfa
    cases f a with
    | error e =>
      rintro ⟨h1, h2, h3, h4⟩
      exact ⟨by omega, h2, fun q hl hq => if h : q < mid then hx q hl h else h3 q (by omega) hq, h4⟩
    | ok b => exact fun h q hl hq => if hq' : q < mid then hx q hl hq' else h q (by omega) hq

theorem Examines.pure {α : Type} {chars : List Byte} (a : α) (lo : Nat) :
    Examines chars (.ok a : Except DecodeError α) lo lo := fun q h1 h2 => by omega

theorem parseMark_examines (chars : List Byte) : Examines chars (parseMark chars) 0 1 := by
  unfold parseMark parseChar
  cases h : chars[0]? with
  | none =>
    have hl : chars.length = 0 := by cases chars <;> simp_all
    simp [bind, Except.bind, Examines, charPasses, failureAt, hl]
  | some c =>
    have hl : chars.length ≠ 0 := by cases chars <;> simp_all
    simp only [bind, Except.bind]
    by_cases hc : c = codeColon
    · simp only [hc, if_true, Examines]
      intro q _ hq
      obtain rfl : q = 0 := by omega
      simp [charPasses, h, hc]
    · rw [if_neg hc]
      refine ⟨Nat.le_refl _, Nat.one_pos, fun q _ hq => absurd hq (Nat.not_lt_zero q), ?_, ?_⟩
      · simpa [charPasses, h] using hc
      · simp [failureAt, hl]

theorem parseDigit_examines (chars : List Byte) (p : Nat) (hp : p ≠ 0) :
    Examines chars (parseDigit chars p) p (p + 1) := by
  unfold parseDigit parseChar
  cases h : chars[p]? with
  | none =>
    have hl : chars.length ≤ p := by simpa using h
    simp only [bind, Except.bind, Examines, charPasses, failureAt, h, hl, if_true]
    exact ⟨by omega, by omega, fun q _ _ => by omega, trivial, trivial⟩
  | some c =>
    have hl : ¬ chars.length ≤ p := by
      have := (List.getElem?_eq_some_iff.mp h).1
      omega
    simp only [bind, Except.bind]
    cases hv : hexval c with
    | none =>
      simp only [Examines, charPasses, failureAt, h, hl, hp, if_false, hv]
      exact ⟨by omega, by omega, fun q _ _ => by omega, rfl, trivial⟩
    | some d =>
      intro q h1 h2
      obtain rfl : q = p := by omega
      simp [charPasses, h, hp, hv]

theorem parseByte_examines (chars : List Byte) (p : Nat) (hp : p ≠ 0) :
    Examines chars (parseByte chars p) p (p + 2) :=
  (parseDigit_examines chars p hp).bind (by omega) fun _ _ =>
    (parseDigit_examines chars (p + 1) (by omega)).bind (by omega) fun _ _ => Examines.pure _ _

theorem parseBytes_examines (chars : List Byte) (p n : Nat) (hp : p ≠ 0) :
    Examines chars (parseBytes chars p n) p (p + 2 * n) := by
  induction n generalizing p with
  | zero => exact Examines.pure _ _
  | succ n ih =>
    refine (parseByte_examines chars p hp).bind (by omega) fun _ _ => ?_
    have h := ih (p + 2) (by omega)
    rw [show p + 2 + 2 * n = p + 2 * (n + 1) by omega] at h
    exact h.bind (by omega) fun _ _ => Examines.pure _ _

/-- The positions a parse of `chars` needs (41_transcoder.md R149): up to 2, then up to `10 + 2·ll`. -/
def neededEnd (chars : List Byte) : Nat :=
  match parseByte chars 1 with
  | .ok ll   => 11 + 2 * ll.toNat
  | .error _ => 3

theorem neededEnd_le (chars : List Byte) : neededEnd chars ≤ 521 := by
  unfold neededEnd
  split
  · rename_i ll _
    have := ll.isLt
    omega
  · omega

/-- The whole parse examines its needed positions in increasing order (41_transcoder.md R149). -/
theorem parseLine_examines (chars : List Byte) : Examines chars (parseLine chars) 0 (neededEnd chars) := by
  have h3 : 3 ≤ neededEnd chars := by unfold neededEnd; split <;> omega
  refine (parseMark_examines chars).bind (by omega) fun _ _ => ?_
  refine (parseByte_examines chars 1 (by omega)).bind (by omega) fun ll hll => ?_
  have he : neededEnd chars = 11 + 2 * ll.toNat := by simp only [neededEnd, hll]
  rw [he]
  refine (parseByte_examines chars 3 (by omega)).bind (by omega) fun _ _ => ?_
  refine (parseByte_examines chars 5 (by omega)).bind (by omega) fun _ _ => ?_
  refine (parseByte_examines chars 7 (by omega)).bind (by omega) fun _ _ => ?_
  refine (parseBytes_examines chars 9 ll.toNat (by omega)).bind (by omega) fun _ _ => ?_
  have h := parseByte_examines chars (9 + 2 * ll.toNat) (by omega)
  rw [show 9 + 2 * ll.toNat + 2 = 11 + 2 * ll.toNat by omega] at h
  exact h.bind (by omega) fun _ _ => Examines.pure _ _

/-! ### What a successful parse has read -/

theorem parseBytes_ok {chars : List Byte} {p n : Nat} {d : List Byte} :
    parseBytes chars p n = .ok d ↔ d.length = n ∧ ∀ k (h : k < d.length), parseByte chars (p + 2 * k) = .ok d[k] := by
  induction n generalizing p d with
  | zero =>
    simp only [parseBytes, Except.ok.injEq]
    constructor
    · rintro rfl; simp
    · rintro ⟨h, -⟩; exact (List.length_eq_zero_iff.mp h).symm
  | succ n ih =>
    simp only [parseBytes, except_bind_ok, Except.ok.injEq]
    constructor
    · rintro ⟨b, hb, bs, hbs, rfl⟩
      obtain ⟨hl, hk⟩ := ih.mp hbs
      refine ⟨by simp [hl], fun k h => ?_⟩
      cases k with
      | zero => simpa using hb
      | succ k =>
        have := hk k (by simpa using h)
        rw [show p + 2 + 2 * k = p + 2 * (k + 1) by omega] at this
        simpa using this
    · rintro ⟨hl, hk⟩
      cases d with
      | nil => simp at hl
      | cons b bs =>
        refine ⟨b, hk 0 (by simp), bs, ih.mpr ⟨by simpa using hl, fun k h => ?_⟩, rfl⟩
        have := hk (k + 1) (by simpa using h)
        rw [show p + 2 * (k + 1) = p + 2 + 2 * k by omega] at this
        simpa using this

/-- All that a successful parse says of the characters (41_transcoder.md R144). -/
theorem parseLine_ok {chars : List Byte} {r : ParsedRecord} :
    parseLine chars = .ok r ↔ parseMark chars = .ok () ∧ parseByte chars 1 = .ok r.len ∧
      (∃ oh ol, parseByte chars 3 = .ok oh ∧ parseByte chars 5 = .ok ol ∧ r.offset = halfOfBytes oh ol) ∧
      parseByte chars 7 = .ok r.type ∧ parseBytes chars 9 r.len.toNat = .ok r.data ∧
      parseByte chars (9 + 2 * r.len.toNat) = .ok r.csum := by
  simp only [parseLine, except_bind_ok, Except.ok.injEq]
  constructor
  · rintro ⟨_, h0, ll, h1, oh, h3, ol, h5, ty, h7, d, hd, cs, hc, rfl⟩
    exact ⟨h0, h1, ⟨oh, ol, h3, h5, rfl⟩, h7, hd, hc⟩
  · rintro ⟨h0, h1, ⟨oh, ol, h3, h5, ho⟩, h7, hd, hc⟩
    refine ⟨(), h0, r.len, h1, oh, h3, ol, h5, r.type, h7, r.data, hd, r.csum, hc, ?_⟩
    cases r; simp_all

/-- A successful parse read as many data bytes as its length says. -/
theorem parseLine_data_length {chars : List Byte} {r : ParsedRecord} (h : parseLine chars = .ok r) :
    r.data.length = r.len.toNat :=
  (parseBytes_ok.mp (parseLine_ok.mp h).2.2.2.2.1).1

/-! ### The parser in the terms of the statements -/

theorem State.charAt_eq (s : State) (p : Nat) : s.charAt p = s.line[p]? := by
  simp only [State.charAt, State.line, List.getElem?_take]

theorem State.passes_eq (s : State) (p : Nat) : s.passes p = charPasses s.line p := by
  have h := s.charAt_eq p
  cases hc : s.line[p]? <;> rw [hc] at h <;> simp [State.passes, charPasses, h, hc]

theorem State.line_length {s : State} (h : s.tlen.toNat ≤ Config.textCap) : s.line.length = s.tlen.toNat := by
  simp only [State.line, List.length_take, Slots.length_bytes]
  omega

theorem State.failure_eq {s : State} (h : s.tlen.toNat ≤ Config.textCap) (p : Nat) :
    failureAt s.line p = { code := s.failure p, pos := p } := by
  simp only [failureAt, State.failure, State.line_length h]

theorem parseDigit_ok {chars : List Byte} {p : Nat} {d : BitVec 4} :
    parseDigit chars p = .ok d ↔ chars[p]?.bind hexval = some d := by
  unfold parseDigit parseChar
  cases chars[p]? with
  | none => simp [bind, Except.bind]
  | some c => cases h : hexval c <;> simp [bind, Except.bind, h]

/-- A byte-pair is there exactly when the parser reads it. -/
theorem State.pairAt_eq_some {s : State} {p : Nat} {b : Byte} :
    s.pairAt p = some b ↔ parseByte s.line p = .ok b := by
  simp only [parseByte, except_bind_ok, parseDigit_ok, State.pairAt, State.charAt_eq, Except.ok.injEq, byteOfDigits]
  cases s.line[p]? with
  | none => simp
  | some c =>
    cases hc : hexval c with
    | none => simp [hc]
    | some hi =>
      cases s.line[p + 1]? with
      | none => simp
      | some c' => cases h : hexval c' <;> simp [hc, h]

theorem State.needs_iff (s : State) (p : Nat) : s.needs p ↔ p < neededEnd s.line := by
  unfold State.needs neededEnd
  simp only [State.pairAt_eq_some]
  split
  · rename_i ll h
    simp only [h, Except.ok.injEq, exists_eq_left']
    omega
  · rename_i e h
    simp [h]
    omega

theorem parseMark_ok {chars : List Byte} : parseMark chars = .ok () ↔ chars[0]? = some codeColon := by
  unfold parseMark parseChar
  cases h : chars[0]? with
  | none => simp [bind, Except.bind]
  | some c => by_cases hc : c = codeColon <;> simp [bind, Except.bind, hc]

/-! ### `State.parse` -/

theorem State.parse_badTlen {s : State} (h : Config.textCap < s.tlen.toNat) :
    s.parse = .error { code := .badTlen, pos := 0 } := by
  simp only [State.parse, if_pos h]

theorem State.parse_eq {s : State} (h : s.tlen.toNat ≤ Config.textCap) : s.parse = parseLine s.line := by
  simp only [State.parse, if_neg (Nat.not_lt.mpr h)]

/-- Every error of a parse: `BAD_TLEN` at 0, or the first failing needed position (60_exceptions.md R188). -/
theorem State.parse_error {s : State} {e : DecodeError} (h : s.parse = .error e) :
    (Config.textCap < s.tlen.toNat ∧ e = { code := .badTlen, pos := 0 }) ∨
      (s.tlen.toNat ≤ Config.textCap ∧ e.pos < neededEnd s.line ∧ s.passes e.pos = false ∧
        (∀ q, q < e.pos → s.passes q = true) ∧ e.code = s.failure e.pos) := by
  by_cases ht : Config.textCap < s.tlen.toNat
  · rw [State.parse_badTlen ht] at h
    cases h
    exact .inl ⟨ht, rfl⟩
  · have ht' := Nat.not_lt.mp ht
    rw [State.parse_eq ht'] at h
    have hx := parseLine_examines s.line
    rw [h] at hx
    obtain ⟨-, h2, h3, h4, h5⟩ := hx
    rw [State.failure_eq ht'] at h5
    refine .inr ⟨ht', h2, by rw [State.passes_eq]; exact h4, fun q hq => ?_, congrArg DecodeError.code h5⟩
    rw [State.passes_eq]
    exact h3 q (Nat.zero_le _) hq

/-- A successful parse found every needed position to pass (41_transcoder.md R150). -/
theorem State.parse_ok_passes {s : State} {r : ParsedRecord} (h : s.parse = .ok r) :
    s.tlen.toNat ≤ Config.textCap ∧ ∀ p, p < neededEnd s.line → s.passes p = true := by
  by_cases ht : Config.textCap < s.tlen.toNat
  · rw [State.parse_badTlen ht] at h; cases h
  · have ht' := Nat.not_lt.mp ht
    rw [State.parse_eq ht'] at h
    have hx := parseLine_examines s.line
    rw [h] at hx
    exact ⟨ht', fun p hp => by rw [State.passes_eq]; exact hx p (Nat.zero_le _) hp⟩

/-! ### Reading back what `ENCODE` writes -/

theorem parseByte_hex2 (pre post : List Byte) (v : Byte) :
    parseByte (pre ++ (hex2 v ++ post)) pre.length = .ok v := by
  simp only [parseByte, except_bind_ok, parseDigit_ok]
  refine ⟨highNibble v, ?_, lowNibble v, ?_, by simp⟩
  · simp [hex2]
  · rw [List.getElem?_append_right (by omega)]
    simp [hex2]

theorem parseBytes_flatMap (pre post bs : List Byte) :
    parseBytes (pre ++ (bs.flatMap hex2 ++ post)) pre.length bs.length = .ok bs := by
  induction bs generalizing pre with
  | nil => rfl
  | cons b bs ih =>
    simp only [List.length_cons, parseBytes, except_bind_ok, List.flatMap_cons, List.append_assoc]
    refine ⟨b, parseByte_hex2 _ _ _, bs, ?_, rfl⟩
    have := ih (pre ++ hex2 b)
    simpa using this

/-- The parser reads a record line back (41_transcoder.md R156). -/
theorem parseLine_lineText (r : Record) :
    parseLine r.lineText =
      .ok { len := r.len, offset := r.offset, type := r.type, data := r.dataBytes, csum := r.csum } := by
  have h1 := parseByte_hex2 [codeColon]
    (hex4 r.offset ++ hex2 r.type ++ r.dataBytes.flatMap hex2 ++ hex2 r.csum ++ [codeCR, codeLF]) r.len
  have h3 := parseByte_hex2 (codeColon :: hex2 r.len)
    (hex2 (offsetLow r.offset) ++ hex2 r.type ++ r.dataBytes.flatMap hex2 ++ hex2 r.csum ++ [codeCR, codeLF])
    (offsetHigh r.offset)
  have h5 := parseByte_hex2 (codeColon :: hex2 r.len ++ hex2 (offsetHigh r.offset))
    (hex2 r.type ++ r.dataBytes.flatMap hex2 ++ hex2 r.csum ++ [codeCR, codeLF]) (offsetLow r.offset)
  have h7 := parseByte_hex2 (codeColon :: hex2 r.len ++ hex4 r.offset)
    (r.dataBytes.flatMap hex2 ++ hex2 r.csum ++ [codeCR, codeLF]) r.type
  have h9 := parseBytes_flatMap (codeColon :: hex2 r.len ++ hex4 r.offset ++ hex2 r.type)
    (hex2 r.csum ++ [codeCR, codeLF]) r.dataBytes
  have hc := parseByte_hex2 (codeColon :: hex2 r.len ++ hex4 r.offset ++ hex2 r.type ++ r.dataBytes.flatMap hex2)
    [codeCR, codeLF] r.csum
  have hl : (codeColon :: hex2 r.len ++ hex4 r.offset ++ hex2 r.type ++ r.dataBytes.flatMap hex2).length =
      9 + 2 * r.len.toNat := by
    simp
    omega
  rw [hl] at hc
  simp only [List.length_append, List.length_cons, hex2_length, List.length_nil, Record.dataBytes_length, hex4,
    List.append_assoc, List.cons_append, List.nil_append] at h1 h3 h5 h7 h9 hc
  refine parseLine_ok.mpr ⟨parseMark_ok.mpr rfl, ?_, ⟨offsetHigh r.offset, offsetLow r.offset, ?_, ?_, ?_⟩, ?_, ?_, ?_⟩
  · simpa [Record.lineText, hex4] using h1
  · simpa [Record.lineText, hex4] using h3
  · simpa [Record.lineText, hex4] using h5
  · simp
  · simpa [Record.lineText, hex4] using h7
  · simpa [Record.lineText, hex4] using h9
  · simpa [Record.lineText, hex4] using hc

/-! ### What a parse reads -/

/-- A record line determines the record it was written from, but for the slots beyond the length. -/
theorem Record.lineText_inj {r q : Record} (h : r.lineText = q.lineText) :
    r.len = q.len ∧ r.offset = q.offset ∧ r.type = q.type ∧ r.dataBytes = q.dataBytes ∧ r.csum = q.csum := by
  have hp := (parseLine_lineText r).symm.trans ((congrArg parseLine h).trans (parseLine_lineText q))
  simpa only [Except.ok.injEq, ParsedRecord.mk.injEq] using hp

/-- Two records with the same line are checksum-valid together (40_checksum.md R124). -/
theorem Record.checksumValid_of_lineText {r q : Record} (h : r.lineText = q.lineText) :
    r.checksumValid = q.checksumValid := by
  obtain ⟨hl, ho, ht, hd, hc⟩ := Record.lineText_inj h
  simp only [Record.checksumValid, Record.sum8, hl, ho, ht, hd, hc]

theorem parseDigit_congr {xs ys : List Byte} {p : Nat} (h : ys[p]? = xs[p]?) : parseDigit ys p = parseDigit xs p := by
  unfold parseDigit parseChar
  rw [h]

theorem parseByte_congr {xs ys : List Byte} {p : Nat} (h : ys[p]? = xs[p]?) (h' : ys[p + 1]? = xs[p + 1]?) :
    parseByte ys p = parseByte xs p := by
  unfold parseByte
  rw [parseDigit_congr h, parseDigit_congr h']

theorem parseBytes_congr {xs ys : List Byte} {p n : Nat} (h : ∀ q, q < p + 2 * n → ys[q]? = xs[q]?) :
    parseBytes ys p n = parseBytes xs p n := by
  induction n generalizing p with
  | zero => rfl
  | succ n ih =>
    unfold parseBytes
    rw [parseByte_congr (h _ (by omega)) (h _ (by omega)), ih fun q hq => h q (by omega)]

/-- A parse reads no position past the checksum pair (41_transcoder.md R153). -/
theorem parseLine_congr {xs ys : List Byte}
    (h : ∀ q, (∀ ll, parseByte xs 1 = .ok ll → q < 11 + 2 * ll.toNat) → ys[q]? = xs[q]?) :
    parseLine ys = parseLine xs := by
  unfold parseLine parseMark parseChar
  rw [h 0 fun _ _ => by omega, parseByte_congr (h 1 fun _ _ => by omega) (h 2 fun _ _ => by omega)]
  congr 1
  funext _
  cases hb : parseByte xs 1 with
  | error e => rfl
  | ok ll =>
    simp only [bind, Except.bind]
    have g : ∀ q, q < 11 + 2 * ll.toNat → ys[q]? = xs[q]? := fun q hq => h q fun l hl => by
      rw [hb] at hl
      cases hl
      exact hq
    rw [parseByte_congr (g 3 (by omega)) (g 4 (by omega)), parseByte_congr (g 5 (by omega)) (g 6 (by omega)),
      parseByte_congr (g 7 (by omega)) (g 8 (by omega)), parseBytes_congr fun q hq => g q (by omega),
      parseByte_congr (g _ (by omega)) (g _ (by omega))]

end Sys2Proof.Machine
end

