-- ==== Sys2Proof/Laws/PerInstr.lean ====
section
/-! SUPPORT. The statements made per command: its word stands in the opcode map (30_encoding.md R80, R81). -/

namespace Sys2Proof.Laws

/-- The command is well formed, its word has `RSVD = 0`, and the word's `OP` selects it. -/
def CommandWord.Statement (i : Instr) : Prop :=
  i.wellFormed = true ∧ rsvdField (encode i) = 0 ∧ instrOfOp (opField (encode i)) = some i

theorem CommandWord.csumCalc : CommandWord.Statement .csumCalc := ⟨rfl, by decide, by decide⟩

theorem CommandWord.csumCheck : CommandWord.Statement .csumCheck := ⟨rfl, by decide, by decide⟩

theorem CommandWord.encode : CommandWord.Statement .encode := ⟨rfl, by decide, by decide⟩

theorem CommandWord.decode : CommandWord.Statement .decode := ⟨rfl, by decide, by decide⟩

end Sys2Proof.Laws
end

