-- ==== Sys2Proof/Laws/Window.lean ====
section
/-! SUPPORT. The address map (20_memory.md R52 to R57): the offset of a register and the register of an offset are inverse,
and an access reaches a register exactly when it is legal. -/

namespace Sys2Proof.Machine

theorem regOffset_toNat_data (k : Fin Config.dataCap) : (regOffset (.data k)).toNat = 0x400 + 4 * k.val := by
  have := k.isLt
  simp only [Config.dataCap] at this
  simp [regOffset, BitVec.toNat_ofNat]
  omega

theorem regOffset_toNat_text (j : Fin Config.textCap) : (regOffset (.text j)).toNat = 0x800 + 4 * j.val := by
  have := j.isLt
  simp only [Config.textCap] at this
  simp [regOffset, BitVec.toNat_ofNat]
  omega

/-- Every register stands at an aligned offset. -/
theorem regOffset_aligned (r : WindowReg) : (regOffset r).toNat % 4 = 0 := by
  cases r with
  | data k => rw [regOffset_toNat_data]; omega
  | text j => rw [regOffset_toNat_text]; omega
  | _ => rfl

@[simp] theorem windowReg_regOffset (r : WindowReg) : windowReg (regOffset r) = some r := by
  cases r with
  | data k =>
    have hk := k.isLt
    simp only [Config.dataCap] at hk
    have h := regOffset_toNat_data k
    simp only [windowReg, h]
    repeat rw [if_neg (by omega)]
    rw [dif_pos (by omega)]
    simp
  | text j =>
    have hj := j.isLt
    simp only [Config.textCap] at hj
    have h := regOffset_toNat_text j
    simp only [windowReg, h]
    repeat rw [if_neg (by omega)]
    rw [dif_neg (by omega), dif_pos (by omega)]
    simp
  | _ => rfl

@[simp] theorem selectReg_regOffset (r : WindowReg) : selectReg (regOffset r) .four = some r := by
  simp [selectReg, regOffset_aligned]

/-- An aligned offset that names a register is that register's offset. -/
theorem eq_regOffset_of_windowReg {a : Offset} {r : WindowReg} (h : windowReg a = some r) (ha : a.toNat % 4 = 0) :
    a = regOffset r := by
  apply BitVec.eq_of_toNat_eq
  unfold windowReg at h
  simp only at h
  repeat' split at h
  all_goals first
    | (cases h; first | (rw [regOffset_toNat_data]; simp only; omega) | (rw [regOffset_toNat_text]; simp only; omega)
                      | (simp only [regOffset]; assumption))
    | cases h

/-- Everything an access reaches: a register, by a 4-byte access at its offset. -/
theorem selectReg_eq_some {a : Offset} {w : AccessWidth} {r : WindowReg} :
    selectReg a w = some r ↔ w = .four ∧ a = regOffset r := by
  constructor
  · intro h
    unfold selectReg at h
    split at h
    · exact ⟨(‹_ ∧ _›).1, eq_regOffset_of_windowReg h (‹_ ∧ _›).2⟩
    · cases h
  · rintro ⟨rfl, rfl⟩
    exact selectReg_regOffset r

/-- An offset names no register exactly when it is past `0x023` and in neither slot range. -/
theorem windowReg_eq_none {a : Offset} (ha : a.toNat % 4 = 0) :
    windowReg a = none ↔ Offset.notReserved a = false := by
  have hlt := a.isLt
  unfold windowReg Offset.notReserved
  simp only
  repeat' split
  all_goals simp
  all_goals omega

/-- An access reaches no register exactly when it is not legal (20_memory.md R56, R57). -/
theorem selectReg_eq_none {a : Offset} {w : AccessWidth} : selectReg a w = none ↔ legalAccess a w = false := by
  unfold selectReg legalAccess
  split
  · obtain ⟨rfl, ha⟩ := ‹_ ∧ _›
    simp [windowReg_eq_none ha, AccessWidth.legal, Offset.aligned, ha]
  · rename_i h
    cases w <;> simp_all [AccessWidth.legal, Offset.aligned]

theorem selectReg_isSome {a : Offset} {w : AccessWidth} (h : legalAccess a w = true) :
    ∃ r, w = .four ∧ a = regOffset r := by
  cases hs : selectReg a w with
  | none => rw [selectReg_eq_none.mp hs] at h; cases h
  | some r => exact ⟨r, selectReg_eq_some.mp hs⟩

/-! ### Transactions -/

@[simp] theorem memRead_regOffset (r : WindowReg) (s : State) :
    memRead (regOffset r) .four s = .next (s.respond (.readData (readReg r s))) := by
  simp [memRead]

@[simp] theorem memWrite_cmd (v : Word) (s : State) :
    memWrite (regOffset .cmd) .four v s = runCommand v (s.respond .writeDone) := by
  simp [memWrite]

theorem memWrite_regOffset {r : WindowReg} (hr : r ≠ .cmd) (v : Word) (s : State) :
    memWrite (regOffset r) .four v s = .next ((storeReg r v s).respond .writeDone) := by
  cases r <;> simp_all [memWrite]

theorem memRead_illegal {a : Offset} {w : AccessWidth} (h : legalAccess a w = false) (s : State) :
    memRead a w s = .fault (.busError a) := by
  simp [memRead, selectReg_eq_none.mpr h]

theorem memWrite_illegal {a : Offset} {w : AccessWidth} (h : legalAccess a w = false) (v : Word) (s : State) :
    memWrite a w v s = .fault (.busError a) := by
  simp [memWrite, selectReg_eq_none.mpr h]

/-- All that a completed read does: it answers with one register's value. -/
theorem memRead_next {a : Offset} {w : AccessWidth} {s t : State} (h : memRead a w s = .next t) :
    ∃ r, w = .four ∧ a = regOffset r ∧ t = s.respond (.readData (readReg r s)) := by
  unfold memRead at h
  split at h
  · rename_i r hr
    cases h
    exact ⟨r, (selectReg_eq_some.mp hr).1, (selectReg_eq_some.mp hr).2, rfl⟩
  · cases h

/-- All that a completed write does: it runs a command, or stores in one register. -/
theorem memWrite_next {a : Offset} {w : AccessWidth} {v : Word} {s t : State} (h : memWrite a w v s = .next t) :
    (w = .four ∧ a = regOffset .cmd ∧ runCommand v (s.respond .writeDone) = .next t) ∨
      ∃ r, r ≠ .cmd ∧ w = .four ∧ a = regOffset r ∧ t = (storeReg r v s).respond .writeDone := by
  cases hs : selectReg a w with
  | none => rw [memWrite_illegal (selectReg_eq_none.mp hs)] at h; cases h
  | some r =>
    obtain ⟨rfl, rfl⟩ := selectReg_eq_some.mp hs
    by_cases hr : r = .cmd
    · subst hr
      exact .inl ⟨rfl, rfl, by rwa [memWrite_cmd] at h⟩
    · rw [memWrite_regOffset hr] at h
      cases h
      exact .inr ⟨r, hr, rfl, rfl, rfl⟩

end Sys2Proof.Machine
end

