-- ==== Sys2Proof/Laws/Step.lean ====
section
/-! SUPPORT. Said once: everything a command, a transaction and a step can do. -/

namespace Sys2Proof.Machine

/-! ### Commands -/

/-- Every command answers a next state (70_reset_and_hazards.md R223). -/
theorem exec_total (i : Instr) (s : State) : ∃ t, exec i s = .next t := by
  cases i
  · exact ⟨_, rfl⟩
  · exact ⟨_, rfl⟩
  · exact ⟨_, rfl⟩
  · show ∃ t, execDecode s = .next t
    unfold execDecode
    split <;> exact ⟨_, rfl⟩

theorem execDecode_of_ok {s : State} {p : ParsedRecord} (h : s.parse = .ok p) :
    execDecode s = .next (s.commitRecord p) := by
  simp [execDecode, h]

theorem execDecode_of_error {s : State} {e : DecodeError} (h : s.parse = .error e) :
    execDecode s = .next (s.raiseDecodeError e) := by
  simp [execDecode, h]

/-- All that `DECODE` does: it commits a parsed record, or reports one error (41_transcoder.md R144). -/
theorem execDecode_cases {s t : State} (h : execDecode s = .next t) :
    (∃ p, s.parse = .ok p ∧ t = s.commitRecord p) ∨ ∃ e, s.parse = .error e ∧ t = s.raiseDecodeError e := by
  unfold execDecode at h
  split at h
  · rename_i p hp; cases h; exact .inl ⟨p, hp, rfl⟩
  · rename_i e he; cases h; exact .inr ⟨e, he, rfl⟩

/-- No command touches the port. -/
theorem exec_port {i : Instr} {s t : State} (h : exec i s = .next t) : t.port = s.port := by
  cases i
  · cases h; rfl
  · cases h; rfl
  · cases h; rfl
  · obtain ⟨p, -, rfl⟩ | ⟨e, -, rfl⟩ := execDecode_cases h <;> simp

/-- The codes a failed parse reports (60_exceptions.md R188). -/
theorem State.parse_error_code {s : State} {e : DecodeError} (h : s.parse = .error e) :
    e.code = .badTlen ∨ e.code = .truncated ∨ e.code = .badMark ∨ e.code = .badDigit := by
  obtain ⟨-, rfl⟩ | ⟨-, -, -, -, hc⟩ := State.parse_error h
  · exact .inl rfl
  · unfold State.failure at hc
    split at hc
    · exact .inr (.inl hc)
    · split at hc
      · exact .inr (.inr (.inl hc))
      · exact .inr (.inr (.inr hc))

/-- The position a failed parse reports fits `ERRPOS` (41_transcoder.md R149). -/
theorem State.parse_error_pos {s : State} {e : DecodeError} (h : s.parse = .error e) : e.pos ≤ 520 := by
  obtain ⟨-, rfl⟩ | ⟨-, hlt, -⟩ := State.parse_error h
  · exact Nat.zero_le _
  · have := neededEnd_le s.line
    omega

/-! ### Transactions -/

/-- Everything a completed event does. -/
inductive Served (e : PortEvent) (s t : State) : Prop
  | reset (he : e = .reset) (ht : t = s.platformReset)
  | read (r : WindowReg) (he : e = .memRead (regOffset r) .four) (ht : t = s.respond (.readData (readReg r s)))
  | store (r : WindowReg) (v : Word) (hr : r ≠ .cmd) (he : e = .memWrite (regOffset r) .four v)
      (ht : t = (storeReg r v s).respond .writeDone)
  | command (v : Word) (i : Instr) (he : e = .memWrite (regOffset .cmd) .four v) (hi : decodeWord v = .ok i)
      (ht : exec i (s.respond .writeDone) = .next t)
  | illegal (v : Word) (x : IllegalWord) (he : e = .memWrite (regOffset .cmd) .four v) (hx : decodeWord v = .error x)
      (ht : t = (s.respond .writeDone).illegalCommand)

theorem serve_memRead (a : Offset) (w : AccessWidth) (s : State) : serve (.memRead a w) s = memRead a w s := rfl

theorem serve_memWrite (a : Offset) (w : AccessWidth) (v : Word) (s : State) :
    serve (.memWrite a w v) s = memWrite a w v s := rfl

theorem serve_next {e : PortEvent} {s t : State} (h : serve e s = .next t) : Served e s t := by
  cases e with
  | reset => cases h; exact .reset rfl rfl
  | memRead a w =>
    obtain ⟨r, rfl, rfl, rfl⟩ := memRead_next h
    exact .read r rfl rfl
  | memWrite a w v =>
    obtain ⟨rfl, rfl, hc⟩ | ⟨r, hr, rfl, rfl, rfl⟩ := memWrite_next h
    · unfold runCommand at hc
      split at hc
      · rename_i i hi; exact .command v i rfl hi hc
      · rename_i x hx; cases hc; exact .illegal v x rfl hx rfl
    · exact .store r v hr rfl rfl

/-- A store touches one field, and no status register, result or port. -/
theorem storeReg_frame (r : WindowReg) (v : Word) (s : State) :
    (storeReg r v s).csumResult = s.csumResult ∧ (storeReg r v s).status = s.status ∧
      (storeReg r v s).errpos = s.errpos ∧ (storeReg r v s).port = s.port := by
  cases r <;> exact ⟨rfl, rfl, rfl, rfl⟩

/-- A well-formed event completes. -/
theorem serve_total {e : PortEvent} (h : e.wellFormed = true) (s : State) : ∃ t, serve e s = .next t := by
  cases e with
  | reset => exact ⟨_, rfl⟩
  | memRead a w =>
    obtain ⟨r, rfl, rfl⟩ := selectReg_isSome h
    exact ⟨_, memRead_regOffset r s⟩
  | memWrite a w v =>
    obtain ⟨r, rfl, rfl⟩ := selectReg_isSome h
    by_cases hr : r = .cmd
    · subst hr
      rw [serve_memWrite, memWrite_cmd]
      unfold runCommand
      split
      · exact exec_total _ _
      · exact ⟨_, rfl⟩
    · exact ⟨_, memWrite_regOffset hr v s⟩

/-- An event leaves alone what is still to arrive. -/
theorem serve_pending {e : PortEvent} {s t : State} (h : serve e s = .next t) : t.port.pending = s.port.pending := by
  cases serve_next h with
  | reset he ht => subst ht; rfl
  | read r he ht => subst ht; rfl
  | store r v hr he ht => subst ht; rw [State.respond_port, (storeReg_frame r v s).2.2.2]
  | command v i he hi ht => rw [exec_port ht]; rfl
  | illegal v x he hx ht => subst ht; rfl

/-- No event changes the number of the block. -/
theorem serve_block {e : PortEvent} {s t : State} (h : serve e s = .next t) : t.port.block = s.port.block := by
  cases serve_next h with
  | reset he ht => subst ht; rfl
  | read r he ht => subst ht; rfl
  | store r v hr he ht => subst ht; rw [State.respond_port, (storeReg_frame r v s).2.2.2]
  | command v i he hi ht => rw [exec_port ht]; rfl
  | illegal v x he hx ht => subst ht; rfl

/-! ### Steps -/

@[simp] theorem step_facing (e : PortEvent) (s : State) : step (s.facing e) = serve e (s.respond .none) := rfl

theorem step_idle {s : State} (h : s.port.pending = []) : step s = .next s := by
  simp [step, h]

theorem step_pending {s : State} {e : PortEvent} {rest : List PortEvent} (h : s.port.pending = e :: rest) :
    step s = serve e (s.accept rest) := by
  simp [step, h]

/-- All that a step does: nothing when the port is idle, one event otherwise (60_exceptions.md R198). -/
theorem step_next {s t : State} (h : step s = .next t) :
    (s.port.pending = [] ∧ t = s) ∨
      ∃ e rest, s.port.pending = e :: rest ∧ Served e (s.accept rest) t := by
  cases hp : s.port.pending with
  | nil => rw [step_idle hp] at h; cases h; exact .inl ⟨rfl, rfl⟩
  | cons e rest => rw [step_pending hp] at h; exact .inr ⟨e, rest, rfl, serve_next h⟩

/-- No step changes the number of the block. -/
theorem step_block {s t : State} (h : step s = .next t) : t.port.block = s.port.block := by
  cases hp : s.port.pending with
  | nil => rw [step_idle hp] at h; cases h; rfl
  | cons e rest => rw [step_pending hp] at h; simpa using serve_block h

/-- A read at the port. -/
@[simp] theorem step_read (r : WindowReg) (s : State) :
    step (s.facing (.memRead (regOffset r) .four)) = .next (s.respond (.readData (readReg r s))) := by
  rw [step_facing, serve_memRead, memRead_regOffset]
  cases r <;> rfl

/-- A store at the port. -/
theorem step_store {r : WindowReg} (hr : r ≠ .cmd) (v : Word) (s : State) :
    step (s.facing (.memWrite (regOffset r) .four v)) = .next ((storeReg r v s).respond .writeDone) := by
  rw [step_facing, serve_memWrite, memWrite_regOffset hr]
  cases r <;> rfl

/-- A command word at the port. -/
@[simp] theorem step_command (v : Word) (s : State) :
    step (s.facing (.memWrite (regOffset .cmd) .four v)) = runCommand v (s.respond .writeDone) := by
  rw [step_facing, serve_memWrite, memWrite_cmd, State.respond_respond]

/-! ### What is still to arrive has no effect on what is performed now (20_memory.md R71) -/

theorem exec_withPending (i : Instr) (s : State) (es : List PortEvent) :
    exec i (s.withPending es) =
      match exec i s with
      | .next t    => .next (t.withPending es)
      | .fault r   => .fault r
      | .refused r => .refused r := by
  cases i
  · rfl
  · rfl
  · rfl
  · show execDecode (s.withPending es) = match execDecode s with
      | .next t    => .next (t.withPending es)
      | .fault r   => .fault r
      | .refused r => .refused r
    have hp : (s.withPending es).parse = s.parse := rfl
    cases h : s.parse with
    | ok r => rw [execDecode_of_ok (hp.trans h), execDecode_of_ok h]; rfl
    | error r => rw [execDecode_of_error (hp.trans h), execDecode_of_error h]; rfl

theorem serve_withPending (e : PortEvent) (s : State) (es : List PortEvent) :
    serve e (s.withPending es) =
      match serve e s with
      | .next t    => .next (t.withPending es)
      | .fault r   => .fault r
      | .refused r => .refused r := by
  cases e with
  | reset => rfl
  | memRead a w =>
    rw [serve_memRead, serve_memRead, memRead, memRead]
    cases selectReg a w with
    | none => rfl
    | some r => cases r <;> rfl
  | memWrite a w v =>
    rw [serve_memWrite, serve_memWrite, memWrite, memWrite]
    cases selectReg a w with
    | none => rfl
    | some r =>
      by_cases hr : r = .cmd
      · subst hr
        show runCommand v ((s.respond .writeDone).withPending es) = match runCommand v (s.respond .writeDone) with
          | .next t    => .next (t.withPending es)
          | .fault r   => .fault r
          | .refused r => .refused r
        unfold runCommand
        cases decodeWord v with
        | ok i => exact exec_withPending i _ es
        | error x => rfl
      · cases r <;> first | contradiction | rfl

end Sys2Proof.Machine
end

