-- ==== Sys2Proof/Laws/Run.lean ====
section
/-! SUPPORT. Runs of several steps: the equation of `run`, and what a row of slot writes does (30_encoding.md R86). -/

namespace Sys2Proof.Machine

@[simp] theorem run_zero (s : State) : run 0 s = .next s := rfl

theorem run_succ (n : Nat) (s : State) :
    run (n + 1) s =
      match step s with
      | .next t    => run n t
      | .fault r   => .fault r
      | .refused r => .refused r := rfl

@[simp] theorem writeSlots_length (base k : Nat) (bs : List Byte) : (writeSlots base k bs).length = bs.length := by
  induction bs generalizing k with
  | nil => rfl
  | cons b bs ih => simp [writeSlots, ih]

/-- Writing character slots from `k` on in order, with `tail` still to arrive after them. -/
theorem run_writeSlots_text (bs : List Byte) (k : Nat) (s : State) (tail : List PortEvent) (n : Nat)
    (hk : k + bs.length ≤ 523) :
    ∃ txt rsp, run (bs.length + n) (s.withPending (writeSlots 0x800 k bs ++ tail)) =
        run n (({ s with text := txt }.withPending tail).respond rsp) ∧
      ∀ j, txt.bytes[j]? = if k ≤ j ∧ j < k + bs.length then bs[j - k]? else s.text.bytes[j]? := by
  induction bs generalizing k s with
  | nil => exact ⟨s.text, s.port.response, by simp [writeSlots]; rfl, fun j => by rw [if_neg (by simp)]⟩
  | cons b bs ih =>
    simp only [List.length_cons] at hk
    have hc : k < Config.textCap := by unfold Config.textCap; omega
    have hs : step (s.withPending (writeSlots 0x800 k (b :: bs) ++ tail)) =
        .next ({ s with text := s.text.set ⟨k, hc⟩ b, port := { s.port with response := .writeDone } }.withPending
          (writeSlots 0x800 (k + 1) bs ++ tail)) := by
      refine (step_store (r := .text ⟨k, hc⟩) (by simp) (b.setWidth 32)
        (s.withPending (writeSlots 0x800 (k + 1) bs ++ tail))).trans ?_
      simp [storeReg, State.withPending, State.respond]
    obtain ⟨txt, rsp, h1, h2⟩ :=
      ih (k + 1) { s with text := s.text.set ⟨k, hc⟩ b, port := { s.port with response := .writeDone } } (by omega)
    refine ⟨txt, rsp, ?_, fun j => ?_⟩
    · rw [List.length_cons, show bs.length + 1 + n = (bs.length + n) + 1 by omega, run_succ, hs]
      exact h1
    · rw [h2]
      simp only [List.length_cons]
      by_cases hj : j = k
      · subst hj
        rw [if_neg (by omega), if_pos (by omega)]
        rw [Nat.sub_self, Slots.bytes_set, List.getElem?_set_self (by rw [Slots.size]; exact hc)]
        rfl
      · by_cases hj2 : k + 1 ≤ j ∧ j < k + 1 + bs.length
        · rw [if_pos hj2, if_pos (by omega), show j - k = (j - (k + 1)) + 1 by omega]
          simp
        · rw [if_neg hj2, if_neg (by omega), Slots.bytes_set, List.getElem?_set_ne (by simp only; omega)]

/-- Writing data slots from `k` on in order, with nothing to arrive after them. -/
theorem run_writeSlots_data (bs : List Byte) (k : Nat) (s : State) (hk : k + bs.length ≤ 255) :
    ∃ d p, run bs.length (s.withPending (writeSlots 0x400 k bs)) = .next { s with record.data := d, port := p } ∧
      ∀ j, d.bytes[j]? = if k ≤ j ∧ j < k + bs.length then bs[j - k]? else s.record.data.bytes[j]? := by
  induction bs generalizing k s with
  | nil => exact ⟨s.record.data, _, rfl, fun j => by rw [if_neg (by simp)]⟩
  | cons b bs ih =>
    simp only [List.length_cons] at hk
    have hc : k < Config.dataCap := by unfold Config.dataCap; omega
    have hs : step (s.withPending (writeSlots 0x400 k (b :: bs))) =
        .next ({ s with record.data := s.record.data.set ⟨k, hc⟩ b, port := { s.port with response := .writeDone } }.withPending
          (writeSlots 0x400 (k + 1) bs)) := by
      refine (step_store (r := .data ⟨k, hc⟩) (by simp) (b.setWidth 32)
        (s.withPending (writeSlots 0x400 (k + 1) bs))).trans ?_
      simp [storeReg, State.withPending, State.respond]
    obtain ⟨d, p, h1, h2⟩ :=
      ih (k + 1) { s with record.data := s.record.data.set ⟨k, hc⟩ b, port := { s.port with response := .writeDone } } (by omega)
    refine ⟨d, p, ?_, fun j => ?_⟩
    · rw [List.length_cons, run_succ, hs]
      exact h1
    · rw [h2]
      simp only [List.length_cons]
      by_cases hj : j = k
      · subst hj
        rw [if_neg (by omega), if_pos (by omega)]
        rw [Nat.sub_self, Slots.bytes_set, List.getElem?_set_self (by rw [Slots.size]; exact hc)]
        rfl
      · by_cases hj2 : k + 1 ≤ j ∧ j < k + 1 + bs.length
        · rw [if_pos hj2, if_pos (by omega), show j - k = (j - (k + 1)) + 1 by omega]
          simp
        · rw [if_neg hj2, if_neg (by omega), Slots.bytes_set, List.getElem?_set_ne (by simp only; omega)]

end Sys2Proof.Machine
end

