-- ==== Sys2Proof/Tests/Slice0.lean ====
section
/-! SUPPORT. The model's own tests: the smoke test of WellFormed, decoding from words written out bit by bit, vectors of
95_test_vectors.md, and for every statement with hypotheses a state and operands that meet them. Expected values are the
spec's. -/

namespace Sys2Proof.Tests
open Sys2Proof.Machine

/-! ### WellFormed refuses -/

theorem test_illformed_width_one : (PortEvent.memWrite 0x010 .one 0).wellFormed = false := by decide
theorem test_illformed_width_two : (PortEvent.memRead 0x010 .two).wellFormed = false := by decide
theorem test_illformed_width_eight : (PortEvent.memRead 0x010 .eight).wellFormed = false := by decide
theorem test_illformed_misaligned : (PortEvent.memRead 0x012 .four).wellFormed = false := by decide
theorem test_illformed_reserved : (PortEvent.memRead 0x024 .four).wellFormed = false ∧
    (PortEvent.memRead 0x7FC .four).wellFormed = false ∧ (PortEvent.memRead 0x102C .four).wellFormed = false := by decide
theorem test_wellformed_last_slot : (PortEvent.memRead 0x1028 .four).wellFormed = true := by decide

/-! ### Decoding: 30_encoding.md R81, the words bit by bit (T-X1 to T-X6) -/

theorem test_decode_csumCalc : decodeWord 0b00000000000000000000000000000001 = .ok .csumCalc := by decide
theorem test_decode_csumCheck : decodeWord 0b00000000000000000000000000000010 = .ok .csumCheck := by decide
theorem test_decode_encode : decodeWord 0b00000000000000000000000000000011 = .ok .encode := by decide
theorem test_decode_decode : decodeWord 0b00000000000000000000000000000100 = .ok .decode := by decide
theorem test_decode_zero : decodeWord 0x00000000 = .error .unassignedOp := by decide
theorem test_decode_rsvd : decodeWord 0x00000011 = .error .reservedBits ∧ decodeWord 0x80000003 = .error .reservedBits := by decide
theorem test_table_word : decodeTableWord 32 0x2 = some .csumCheck ∧ decodeTableWord 32 0x5 = none := by decide

/-! ### Helpers -/

/-- `o` is a next state with the property `p`. -/
def nextIs (o : Host.Outcome State Fault Refusal) (p : State → Bool) : Bool :=
  match o with
  | .next t    => p t
  | .fault _   => false
  | .refused _ => false

/-- The bus error at `a`. -/
def busErrorAt (o : Host.Outcome State Fault Refusal) (a : Offset) : Bool :=
  match o with
  | .next _    => false
  | .fault r   => decide (r = .busError a)
  | .refused _ => false

/-- A state with the given record over the fill `0x11`, and `TEXT` filled with `0x5A`. -/
def recordState (len : Byte) (offset : Half) (type csum : Byte) (data : List Byte) : State :=
  { State.reset with record := { len := len, offset := offset, type := type, csum := csum,
                                 data := overwrite State.reset.record.data data } }

/-- A state with the given characters from slot 0 and the given `TLEN`. -/
def lineState (cs : List Byte) (tlen : BitVec 10) : State :=
  { State.reset with text := overwrite State.reset.text cs, tlen := tlen }

/-- The error outcome of 60_exceptions.md R185 with the record kept. -/
def failsWith (s : State) (err : BitVec 4) (pos : BitVec 10) : Bool :=
  nextIs (exec .decode s) fun t =>
    t.status.err == err && t.status.estky && t.errpos == pos && decide (t.record = s.record) && decide (t.text = s.text)

/-! ### Commands -/

-- T-C6, and T-C11 (the offset bytes alone wrap to zero)
theorem test_csumCalc_T_C6 :
    nextIs (exec .csumCalc (recordState 3 0x1234 0 0 [0xFF, 0xFF, 0xFF]))
      (fun t => t.record.csum == 0xBA && t.csumResult == 0xBA) = true := by decide
theorem test_csumCalc_T_C11 :
    nextIs (exec .csumCalc (recordState 0 0xFF01 0 5 [])) (fun t => t.record.csum == 0x00 && t.status.err == 0) = true := by
  decide

-- T-K1 and T-K2
theorem test_csumCheck_T_K1 :
    nextIs (exec .csumCheck (recordState 1 2 0 0xFA [3])) (fun t => t.csumResult == 0xFA && t.status.ckok) = true := by decide
theorem test_csumCheck_T_K2 :
    nextIs (exec .csumCheck (recordState 1 2 0 0xFB [3]))
      (fun t => t.csumResult == 0xFA && !t.status.ckok && t.status.err == 0 && !t.status.estky && t.record.csum == 0xFB)
      = true := by decide

-- T-E5 (and the slot past the line keeps 0x5A), and T-E7 (the whole buffer)
theorem test_encode_T_E5 :
    nextIs (exec .encode (recordState 2 0 2 0xEC [0x10, 0x00]))
      (fun t => t.text.bytes.take 18 ==
        [0x3A, 0x30, 0x32, 0x30, 0x30, 0x30, 0x30, 0x30, 0x32, 0x31, 0x30, 0x30, 0x30, 0x45, 0x43, 0x0D, 0x0A, 0x5A]
        && t.tlen == 17) = true := by decide
theorem test_encode_T_E7 :
    nextIs (exec .encode (recordState 0xFF 0xFFFF 0xFF 0x03 (List.replicate 255 0xFF)))
      (fun t => t.tlen == 523 && t.text.bytes.drop 517 == [0x46, 0x46, 0x30, 0x33, 0x0D, 0x0A]) = true := by decide +kernel

-- T-D2 (lowercase) and T-D19 (the slots past the length are kept), in the fill 0x11
theorem test_decode_T_D2 :
    nextIs (exec .decode (lineState [0x3A, 0x30, 0x33, 0x30, 0x30, 0x33, 0x30, 0x30, 0x30, 0x30, 0x32, 0x33, 0x33, 0x37, 0x61, 0x31, 0x65, 0x0D, 0x0A] 19))
      (fun t => t.record.len == 3 && t.record.offset == 0x0030 && t.record.type == 0 && t.record.csum == 0x1E &&
        t.record.data.bytes.take 4 == [0x02, 0x33, 0x7A, 0x11] && t.status.err == 0 && t.errpos == 0) = true := by decide
-- T-D5, T-D6, T-D8, T-D9, T-D12 and T-D14
theorem test_decode_errors :
    failsWith (lineState [] 0) 4 0 = true ∧
    failsWith (lineState [0x58, 0x30, 0x30, 0x30, 0x30, 0x30, 0x30, 0x30, 0x31, 0x46, 0x46, 0x0D, 0x0A] 13) 2 0 = true ∧
    failsWith (lineState [0x3A, 0x30, 0x47, 0x30, 0x30, 0x30, 0x30, 0x30, 0x31, 0x46, 0x46, 0x0D, 0x0A] 13) 3 2 = true ∧
    failsWith (lineState [0x3A, 0x30, 0x47] 2) 4 2 = true ∧
    failsWith (lineState [0x3A, 0x30, 0x31, 0x30, 0x30, 0x30, 0x32, 0x30, 0x30, 0x30, 0x33, 0x46] 12) 4 12 = true ∧
    failsWith (lineState [0x3A, 0x30, 0x30, 0x30, 0x30, 0x30, 0x30, 0x30, 0x31, 0x46, 0x46] 524) 5 0 = true := by
  decide +kernel

/-! ### The port -/

-- T-M1
theorem test_write_truncates :
    nextIs (step (State.reset.facing (.memWrite 0x014 .four 0x0001ABCD))) (fun t => t.record.offset == 0xABCD) = true := by
  decide
-- T-M8: the last slot
theorem test_read_last_slot :
    nextIs (step ((lineState (List.replicate 523 0x41) 523).facing (.memRead 0x1028 .four)))
      (fun t => decide (t.port.response = .readData 0x41)) = true := by decide +kernel
-- T-M6, T-M9 and T-M10
theorem test_bus_errors :
    busErrorAt (step (State.reset.facing (.memRead 0x024 .four))) 0x024 = true ∧
    busErrorAt (step (State.reset.facing (.memRead 0x012 .four))) 0x012 = true ∧
    busErrorAt (step (State.reset.facing (.memWrite 0x010 .one 0))) 0x010 = true := by decide
-- T-M5 and P4 step 10: STATUS with ESTKY set reads 0x200
theorem test_status_word : Status.toWord { err := 0, ckok := false, estky := true } = 0x200 ∧
    Status.toWord { err := 3, ckok := false, estky := true } = 0x203 := by decide
-- T-X4: OP = 1 but RSVD ≠ 0
theorem test_illegal_T_X4 :
    nextIs (step (State.reset.facing (.memWrite 0x000 .four 0x00000011)))
      (fun t => t.status.err == 1 && t.status.estky && t.record.csum == 0x11) = true := by decide

/-! ### Witnesses: for every statement with hypotheses, a state and operands that meet them all -/

/-- `:0100020003FA` CR LF (T-D1). -/
def goodLine : State := lineState [0x3A, 0x30, 0x31, 0x30, 0x30, 0x30, 0x32, 0x30, 0x30, 0x30, 0x33, 0x46, 0x41, 0x0D, 0x0A] 15

/-- `:02000000` (T-D10). -/
def cutLine : State := lineState [0x3A, 0x30, 0x32, 0x30, 0x30, 0x30, 0x30, 0x30, 0x30] 9

theorem witness_ExactlyTheEncodedWordsAreLegal : (5 : Word) ≠ 1 ∧ (5 : Word) ≠ 2 ∧ (5 : Word) ≠ 3 ∧ (5 : Word) ≠ 4 := by decide

/-- Each clause at a boundary: `OP = 0`, `OP = 5`, `OP = 15`, and `RSVD` 1 with a legal `OP`. -/
theorem witness_IllegalWordSetsErrAndStickyOnly :
    ((0 : Word).toNat % 16 = 0) ∧ (5 ≤ (5 : Word).toNat % 16) ∧ (5 ≤ (15 : Word).toNat % 16) ∧ ((0x14 : Word).toNat / 16 ≠ 0) := by
  decide

theorem witness_StepRunsTheDecodedCommand :
    (State.reset.facing (.memWrite 0x000 .four 2)).port.pending = .memWrite 0x000 .four 2 :: [] ∧
      decodeWord 2 = .ok .csumCheck := by decide

theorem witness_PlacedTableWordRunsNext : decodeTableWord 32 4 = some .decode := by decide

theorem witness_WindowOffsetsSelectTheirRegisters :
    selectReg 0x400 .four = some (.data 0) ∧ selectReg 0x7F8 .four = some (.data 254) ∧
      selectReg 0x800 .four = some (.text 0) ∧ selectReg 0x1028 .four = some (.text 522) := by decide

theorem witness_ReadOnlyRegistersIgnoreWrites : ∃ a : Offset, a = 0x004 ∨ a = 0x008 ∨ a = 0x00C := ⟨0x004, .inl rfl⟩

/-- Each clause at a boundary of its range. -/
theorem witness_IllegalAccessIsABusError :
    AccessWidth.eight ≠ .four ∧ (0x003 : Offset).toNat % 4 ≠ 0 ∧
      (0x024 ≤ (0x024 : Offset).toNat ∧ (0x3FC : Offset).toNat ≤ 0x3FF) ∧
      (0x7FC ≤ (0x7FC : Offset).toNat ∧ (0x7FC : Offset).toNat ≤ 0x7FF) ∧
      (0x102C ≤ (0x102C : Offset).toNat ∧ (0x1FFC : Offset).toNat ≤ 0x1FFF) := by decide

/-- Each range at its first and last word. -/
theorem witness_LegalAccessCompletes :
    (0x020 : Offset).toNat % 4 = 0 ∧ (0x020 : Offset).toNat ≤ 0x020 ∧ (0x400 : Offset).toNat % 4 = 0 ∧
      (0x400 ≤ (0x400 : Offset).toNat ∧ (0x7F8 : Offset).toNat ≤ 0x7F8) ∧ (0x7F8 : Offset).toNat % 4 = 0 ∧
      (0x800 ≤ (0x800 : Offset).toNat ∧ (0x1028 : Offset).toNat ≤ 0x1028) ∧ (0x1028 : Offset).toNat % 4 = 0 := by decide

theorem witness_ReadsHaveNoSideEffect : ∃ t, step (State.reset.facing (.memRead 0x004 .four)) = .next t := ⟨_, rfl⟩

theorem witness_StoresAreIdempotent :
    (0x010 : Offset) ≠ 0x000 ∧ ∃ t, step (State.reset.facing (.memWrite 0x010 .four 7)) = .next t := ⟨by decide, _, rfl⟩

theorem witness_StatusReadsZeroAfterReset : ∃ a : Offset, a = 0x004 ∨ a = 0x008 ∨ a = 0x00C := ⟨0x00C, .inr (.inr rfl)⟩

theorem witness_IdleBlockKeepsItsState : State.reset.port.pending = [] := rfl

/-- Two states that differ only in a slot past the length. -/
theorem witness_ChecksumIgnoresSlotsBeyondTheLength :
    (recordState 1 2 0 0 [3, 0x77]).record.len = (recordState 1 2 0 0 [3]).record.len ∧
      (recordState 1 2 0 0 [3, 0x77]).record.offset = (recordState 1 2 0 0 [3]).record.offset ∧
      (recordState 1 2 0 0 [3, 0x77]).record.type = (recordState 1 2 0 0 [3]).record.type ∧
      (∀ k : Fin 255, k.val < (recordState 1 2 0 0 [3]).record.len.toNat →
        (recordState 1 2 0 0 [3, 0x77]).record.data.get k = (recordState 1 2 0 0 [3]).record.data.get k) ∧
      (recordState 1 2 0 0 [3, 0x77]).record ≠ (recordState 1 2 0 0 [3]).record ∧
      (∃ t, exec .csumCalc (recordState 1 2 0 0 [3]) = .next t) ∧
      ∃ t', exec .csumCalc (recordState 1 2 0 0 [3, 0x77]) = .next t' := by
  refine ⟨rfl, rfl, rfl, ?_, by decide +kernel, ⟨_, rfl⟩, _, rfl⟩
  intro k hk
  obtain ⟨k, hlt⟩ := k
  have hk' : k < 1 := hk
  obtain rfl : k = 0 := by omega
  rfl

theorem witness_CsumCalcIsStableAndChecksOut : ∃ t, exec .csumCalc State.reset = .next t := ⟨_, rfl⟩

theorem witness_EncodedTextIsTheRecordLine : ∃ t, exec .encode State.reset = .next t := ⟨_, rfl⟩

theorem witness_EndOfFileLineIsFixed :
    (recordState 0 0 1 0xFF []).record.len = 0 ∧ (recordState 0 0 1 0xFF []).record.offset = 0 ∧
      (recordState 0 0 1 0xFF []).record.type = 1 ∧ (recordState 0 0 1 0xFF []).record.csum = 0xFF ∧
      ∃ t, exec .encode (recordState 0 0 1 0xFF []) = .next t := ⟨rfl, rfl, rfl, rfl, _, rfl⟩

theorem witness_EncodeEmitsOnlyUppercaseHexDigits :
    ∃ t, exec .encode (recordState 0 0 1 0xFF []) = .next t ∧ 1 ≤ 10 ∧ 10 + 2 < t.tlen.toNat := ⟨_, rfl, by decide, by decide⟩

/-- Each clause at a boundary code: both ends of the digits, of `A`–`F` and of `a`–`f`, and the codes beside them. -/
theorem witness_HexvalOfEveryCode :
    (0x30 ≤ (0x30 : Byte).toNat ∧ (0x39 : Byte).toNat ≤ 0x39) ∧ (0x41 ≤ (0x41 : Byte).toNat ∧ (0x46 : Byte).toNat ≤ 0x46) ∧
      (0x61 ≤ (0x61 : Byte).toNat ∧ (0x66 : Byte).toNat ≤ 0x66) ∧ (0x2F : Byte).toNat < 0x30 ∧
      (0x39 < (0x3A : Byte).toNat ∧ (0x40 : Byte).toNat < 0x41) ∧ (0x46 < (0x47 : Byte).toNat ∧ (0x60 : Byte).toNat < 0x61) ∧
      0x66 < (0x67 : Byte).toNat := by decide

theorem witness_DecodeCommitsTheParsedRecord :
    goodLine.tlen.toNat ≤ 523 ∧ goodLine.charAt 0 = some 0x3A ∧ goodLine.pairAt 1 = some 1 ∧ goodLine.pairAt 3 = some 0 ∧
      goodLine.pairAt 5 = some 2 ∧ goodLine.pairAt 7 = some 0 ∧
      (∀ k, k < (1 : Byte).toNat → goodLine.pairAt (9 + 2 * k) = some 3) ∧
      goodLine.pairAt (9 + 2 * (1 : Byte).toNat) = some 0xFA := by
  decide

theorem witness_DecodeRejectsTlenAboveCapacity : 523 < (lineState [] 524).tlen.toNat := by decide

/-- `BAD_MARK` at 0 (T-D6), `BAD_DIGIT` at 2 (T-D8), `TRUNCATED` at 0 (T-D5) and at 9 (T-D10), `BAD_TLEN` at 524 (T-D14), and a
line whose 13 needed positions pass (T-D1). -/
theorem witness_DecodeReportsTheLowestFailingPosition :
    ((lineState [0x58] 1).needs 0 ∧ (∀ q, q < 0 → (lineState [0x58] 1).passes q = true) ∧
      (lineState [0x58] 1).passes 0 = false) ∧
    ((lineState [0x3A, 0x30, 0x47] 3).needs 2 ∧ (∀ q, q < 2 → (lineState [0x3A, 0x30, 0x47] 3).passes q = true) ∧
      (lineState [0x3A, 0x30, 0x47] 3).passes 2 = false) ∧
    ((lineState [] 0).needs 0 ∧ (lineState [] 0).passes 0 = false) ∧
    (cutLine.needs 9 ∧ (∀ q, q < 9 → cutLine.passes q = true) ∧ cutLine.passes 9 = false) ∧
    523 < (lineState [] 524).tlen.toNat ∧
    (goodLine.pairAt 1 = some 1 ∧ ∀ p, p < 11 + 2 * (1 : Byte).toNat → goodLine.passes p = true) :=
  ⟨⟨.inl (by decide), by decide, by decide⟩, ⟨.inl (by decide), by decide, by decide⟩, ⟨.inl (by decide), by decide⟩,
    ⟨.inr ⟨2, by decide, by decide⟩, by decide, by decide⟩, by decide, by decide, by decide⟩

/-- Both sides occur: the good line passes, the empty one fails. -/
theorem witness_DecodeSucceedsExactlyWhenAllPositionsPass :
    nextIs (exec .decode goodLine) (fun t => t.status.err == 0) = true ∧
      nextIs (exec .decode (lineState [] 0)) (fun t => t.status.err != 0) = true := by decide

theorem witness_TruncatedRecordsTlen : ∃ t, exec .decode (lineState [] 0) = .next t ∧ t.status.err = 4 := ⟨_, rfl, by decide⟩

theorem witness_FailingDecodeWritesOnlyTheError :
    ∃ t, exec .decode (lineState [0x58] 1) = .next t ∧ t.status.err ≠ 0 := ⟨_, rfl, by decide⟩

/-- A change past the checksum pair: the CR at 13 becomes `G`. -/
theorem witness_DecodeReadsOnlyTheNeededCharacters :
    (∀ j : Nat, j < goodLine.tlen.toNat → (∀ ll, goodLine.pairAt 1 = some ll → j < 11 + 2 * ll.toNat) →
      (goodLine.text.set 13 0x47).bytes[j]? = goodLine.text.bytes[j]?) ∧ goodLine.text.set 13 0x47 ≠ goodLine.text ∧
      ∃ t, exec .decode goodLine = .next t := by
  refine ⟨fun j _ h => ?_, by decide +kernel, _, rfl⟩
  have h13 := h 1 (by decide)
  have : ((13 : Fin Config.textCap) : Nat) = 13 := rfl
  have h13 : j < 13 := h13
  rw [Slots.bytes_set, List.getElem?_set_ne (by omega)]

theorem witness_EncodeOfDecodeIsTheSameLine :
    goodLine.tlen.toNat = 13 + 2 * (recordState 1 2 0 0xFA [3]).record.len.toNat ∧
      goodLine.text.bytes.take goodLine.tlen.toNat = [0x3A] ++ hex2 1 ++ hex4 2 ++ hex2 0 ++
        ((recordState 1 2 0 0xFA [3]).record.data.bytes.take 1).flatMap hex2 ++ hex2 0xFA ++ [0x0D, 0x0A] := by decide

theorem witness_EveryStepKeepsTheStatusInvariant :
    State.Inv (State.reset.facing (.memWrite 0x000 .four 4)) ∧
      ∃ t, step (State.reset.facing (.memWrite 0x000 .four 4)) = .next t := ⟨by decide, _, rfl⟩

/-- Each clause: an illegal word ends with `ERR ≠ 0`; a set `ESTKY` before an event that is no reset; a reset. -/
theorem witness_StickyErrorIsClearedOnlyByReset :
    (∃ t, step (State.reset.facing (.memWrite 0x000 .four 0)) = .next t ∧ t.status.err ≠ 0) ∧
      (∃ t, step (State.reset.illegalCommand.facing (.memWrite 0x000 .four 1)) = .next t ∧
        (State.reset.illegalCommand.facing (.memWrite 0x000 .four 1)).status.estky = true ∧
        (State.reset.illegalCommand.facing (.memWrite 0x000 .four 1)).port.pending.head? ≠ some .reset) ∧
      ∃ t, step (State.reset.facing .reset) = .next t :=
  ⟨⟨_, rfl, by decide⟩, ⟨_, rfl, by decide, by decide⟩, _, rfl⟩

theorem witness_CkokIsWrittenOnlyByCsumCheck :
    PortEvent.memWrite 0x000 .four 1 ≠ .reset ∧ PortEvent.memWrite 0x000 .four 1 ≠ .memWrite 0x000 .four 2 ∧
      ∃ t, step (State.reset.facing (.memWrite 0x000 .four 1)) = .next t := ⟨by decide, by decide, _, rfl⟩

theorem witness_ResultRegistersHaveTheirOwnWriters :
    PortEvent.memWrite 0x000 .four 3 ≠ .reset ∧ PortEvent.memWrite 0x000 .four 3 ≠ .memWrite 0x000 .four 4 ∧
      PortEvent.memWrite 0x000 .four 3 ≠ .memWrite 0x000 .four 1 ∧ PortEvent.memWrite 0x000 .four 3 ≠ .memWrite 0x000 .four 2 ∧
      ∃ t, step (State.reset.facing (.memWrite 0x000 .four 3)) = .next t := ⟨by decide, by decide, by decide, by decide, _, rfl⟩

theorem witness_EveryCommandWriteSetsErr :
    (3 : Word) = 3 ∧ (4 : Word) = 4 ∧ (5 : Word) ≠ 1 ∧ (5 : Word) ≠ 2 ∧ (5 : Word) ≠ 3 ∧ (5 : Word) ≠ 4 := by decide

/-- A command word, and an illegal one. -/
theorem witness_CommandsReadNoStatusOrResult :
    (∃ t, step (goodLine.facing (.memWrite 0x000 .four 4)) = .next t) ∧
      ∃ t, step (State.reset.facing (.memWrite 0x000 .four 0)) = .next t := ⟨⟨_, rfl⟩, _, rfl⟩

theorem witness_LegalAccessesNeverStopTheBlock :
    State.OnlyLegal (State.reset.withPending [wr .recLen 1, issue .csumCalc, rd .status, .reset]) := by
  unfold State.OnlyLegal
  decide

theorem witness_InstancesAreIndependent :
    (∃ after, Platform.stepAt 0 [State.reset, State.reset] = .next after) ∧ (1 : Nat) ≠ 0 ∧
      Platform.locate [0x40000000, 0x40002000] 0x40002010 = some (1, 0x010) := ⟨⟨_, rfl⟩, by decide, by decide⟩

/-- Both clauses: the last word of the second window, and the first address past it. -/
theorem witness_HostAddressIsBasePlusOffset :
    Platform.locate [0x40000000, 0x40002000] 0x40003FFC = some (1, 0x1FFC) ∧
      Platform.locate [0x40000000, 0x40002000] 0x40004000 = none := by decide

/-- An ordered port with two hosts, and an unordered one that delivers a host's two reads the other way round. -/
theorem witness_ArrivalKeepsEachAgentsOrder :
    Arrives { ihxBases := [0], hostOrderedPort := true } [[rd .status], [rd .tlen, rd .errpos]]
        [rd .tlen, rd .status, rd .errpos] ∧
      Arrives { ihxBases := [0], hostOrderedPort := false } [[rd .tlen, rd .errpos]] [rd .errpos, rd .tlen] :=
  ⟨⟨_, .cons rfl (.cons rfl .nil), .take (k := 1) rfl (.take (k := 0) rfl (.take (k := 1) rfl (.done (by simp))))⟩,
    ⟨[[rd .errpos, rd .tlen]], .cons (.swap _ _ _) .nil, .take (k := 0) rfl (.take (k := 0) rfl (.done (by simp)))⟩⟩

theorem witness_LoadLineFillsTheLineBuffer : (List.replicate 523 (0x41 : Byte)).length ≤ 523 := by rw [List.length_replicate]

theorem witness_SetRecordFillsTheRecord : (List.replicate 255 (0x41 : Byte)).length ≤ 255 := by rw [List.length_replicate]

/-- Two instances after power-on, the second with a reset event at its port. -/
theorem witness_InstancesDrawByTheirOwnNumbers :
    ∃ s : State, (Platform.postReset 1 (Platform.powerOn 2))[1]? = some s ∧ s.port.pending = [.reset] ∧
      s.port.block = 1 ∧ Platform.Numbered (Platform.powerOn 2) := by
  refine ⟨_, rfl, rfl, rfl, fun k s h => ?_⟩
  simp only [Platform.powerOn, List.getElem?_map, Option.map_eq_some_iff, List.getElem?_eq_some_iff] at h
  obtain ⟨a, ⟨_, rfl⟩, rfl⟩ := h
  simp

/-- Both sides of the equivalence occur: the checksum `FA` of T-E5 is correct, `FB` is not. -/
theorem witness_WellFormedLinesComeOnlyFromValidRecords :
    (∃ t, exec .encode (recordState 1 2 0 0xFA [3]) = .next t) ∧
      (recordState 1 2 0 0xFA [3]).record.checksumValid = true ∧
      (recordState 1 2 0 0xFB [3]).record.checksumValid = false := ⟨⟨_, rfl⟩, by decide, by decide⟩

end Sys2Proof.Tests
end

section
/-! PROOFS. The register window (20_memory.md R52 to R60): what a read, a store and an illegal access at the port answer. -/

namespace Sys2Proof.Machine

/-! ### The fields of the `STATUS` word (10_state.md R29) -/

theorem Status.toWord_toNat (st : Status) :
    st.toWord.toNat = st.err.toNat + (if st.ckok then 2 ^ 8 else 0) + (if st.estky then 2 ^ 9 else 0) := by
  have herr := st.err.isLt
  rw [Status.toWord, BitVec.toNat_ofNat, Nat.mod_eq_of_lt]
  split <;> split <;> omega

theorem Status.toWord_extractLsb'_toNat (st : Status) (start len : Nat) :
    (st.toWord.extractLsb' start len).toNat =
      (st.err.toNat + (if st.ckok then 2 ^ 8 else 0) + (if st.estky then 2 ^ 9 else 0)) / 2 ^ start % 2 ^ len := by
  rw [BitVec.extractLsb'_toNat, Nat.shiftRight_eq_div_pow, Status.toWord_toNat]

theorem Status.toWord_err (st : Status) : st.toWord.extractLsb' 0 4 = st.err := by
  have herr := st.err.isLt
  apply BitVec.eq_of_toNat_eq
  rw [Status.toWord_extractLsb'_toNat]
  split <;> split <;> omega

/-- The reserved bits [7:4] and [31:10] are 0 (20_memory.md R60). -/
theorem Status.toWord_reserved (st : Status) : st.toWord.extractLsb' 4 4 = 0 ∧ st.toWord.extractLsb' 10 22 = 0 := by
  have herr := st.err.isLt
  simp only [← BitVec.toNat_inj, Status.toWord_extractLsb'_toNat, BitVec.ofNat_eq_ofNat, BitVec.toNat_zero]
  split <;> split <;> omega

/-- The two flags stand at bits [8] and [9]. -/
theorem Status.toWord_flags (st : Status) : st.toWord.getLsbD 8 = st.ckok ∧ st.toWord.getLsbD 9 = st.estky := by
  have herr := st.err.isLt
  simp only [← BitVec.testBit_toNat, Status.toWord_toNat, Nat.testBit_eq_decide_div_mod_eq]
  cases st.ckok <;> cases st.estky <;> simp <;> omega

/-! ### Transactions at the port -/

/-- A read of a register of width `n` answers its value zero-extended (20_memory.md R60). -/
theorem step_read_zeroExtend {n : Nat} (hn : n ≤ 32) (r : WindowReg) (s : State) (x : BitVec n)
    (hr : readReg r s = x.setWidth 32) :
    ∃ y : Word, y.toNat = x.toNat ∧ step (s.facing (.memRead (regOffset r) .four)) = .next (s.respond (.readData y)) :=
  ⟨readReg r s, by rw [hr, BitVec.toNat_setWidth_of_le hn], step_read r s⟩

theorem step_read_illegal {a : Offset} {w : AccessWidth} (h : legalAccess a w = false) (s : State) :
    step (s.facing (.memRead a w)) = .fault (.busError a) := by
  rw [step_facing, serve_memRead, memRead_illegal h]

theorem step_write_illegal {a : Offset} {w : AccessWidth} (h : legalAccess a w = false) (v : Word) (s : State) :
    step (s.facing (.memWrite a w v)) = .fault (.busError a) := by
  rw [step_facing, serve_memWrite, memWrite_illegal h]

/-- What makes an access illegal: its width, its alignment, or an offset reserved by 20_memory.md R52. -/
theorem legalAccess_eq_false_iff {a : Offset} {w : AccessWidth} :
    legalAccess a w = false ↔
      w ≠ .four ∨ a.toNat % 4 ≠ 0 ∨ (0x024 ≤ a.toNat ∧ a.toNat ≤ 0x3FF) ∨ (0x7FC ≤ a.toNat ∧ a.toNat ≤ 0x7FF) ∨
        (0x102C ≤ a.toNat ∧ a.toNat ≤ 0x1FFF) := by
  cases w with
  | four => simp [legalAccess, AccessWidth.legal, Offset.aligned, Offset.notReserved]; omega
  | _ => simp [legalAccess, AccessWidth.legal]

/-! ### The statements -/

/-- Settles O7: each offset is a register's, where `step_store` and `step_read_zeroExtend` give the transaction, and `STATUS`
is read field by field. -/
theorem writesKeepLowBitsAndReadsZeroExtend : Obligations.WritesKeepLowBitsAndReadsZeroExtend := by
  intro s v
  have hlow : ∀ n ≤ 32, v.extractLsb' 0 n = v.setWidth n := fun n hn => (BitVec.setWidth_eq_extractLsb' hn).symm
  rw [hlow 8 (by decide), hlow 16 (by decide), hlow 10 (by decide)]
  refine ⟨?_, ?_, ?_, ?_, ?_, fun k => ?_, fun j => ?_, ?_, ?_, ?_, ?_, ?_, ?_, ?_, ?_, fun k => ?_, fun j => ?_⟩
  · exact step_store (r := .recLen) nofun v s
  · exact step_store (r := .recOffset) nofun v s
  · exact step_store (r := .recType) nofun v s
  · exact step_store (r := .recCsum) nofun v s
  · exact step_store (r := .tlen) nofun v s
  · exact step_store (r := .data k) nofun v s
  · exact step_store (r := .text j) nofun v s
  · obtain ⟨hlow4, hhigh22⟩ := s.status.toWord_reserved
    obtain ⟨hckok, hestky⟩ := s.status.toWord_flags
    exact ⟨s.status.toWord, s.status.toWord_err, hlow4, hckok, hestky, hhigh22, step_read .status s⟩
  · exact step_read_zeroExtend (by decide) .errpos s s.errpos rfl
  · exact step_read_zeroExtend (by decide) .csumResult s s.csumResult rfl
  · exact step_read_zeroExtend (by decide) .recLen s s.record.len rfl
  · exact step_read_zeroExtend (by decide) .recOffset s s.record.offset rfl
  · exact step_read_zeroExtend (by decide) .recType s s.record.type rfl
  · exact step_read_zeroExtend (by decide) .recCsum s s.record.csum rfl
  · exact step_read_zeroExtend (by decide) .tlen s s.tlen rfl
  · exact step_read_zeroExtend (by decide) (.data k) s (s.record.data.get k) rfl
  · exact step_read_zeroExtend (by decide) (.text j) s (s.text.get j) rfl

/-- Settles O11: such an access is not legal, and the port stops at one. -/
theorem illegalAccessIsABusError : Obligations.IllegalAccessIsABusError := by
  intro s a w h
  have hill : legalAccess a w = false := legalAccess_eq_false_iff.mpr h
  exact ⟨step_read_illegal hill s, fun v => step_write_illegal hill v s⟩

/-- Settles O9: `storeReg` leaves the state as it is at each of the three read-only registers. -/
theorem readOnlyRegistersIgnoreWrites : Obligations.ReadOnlyRegistersIgnoreWrites := by
  rintro s v a (rfl | rfl | rfl)
  · exact step_store (r := .status) nofun v s
  · exact step_store (r := .errpos) nofun v s
  · exact step_store (r := .csumResult) nofun v s

/-- Settles O10: `step_read` at `CMD`, whose value to a reader is 0. -/
theorem cmdReadsZero : Obligations.CmdReadsZero :=
  fun s => step_read .cmd s

end Sys2Proof.Machine
end

section
/-! PROOFS. The command words (30_encoding.md R80 to R83): which of the 2^32 words are legal, and what an illegal one does. -/

namespace Sys2Proof.Laws

theorem CommandWord.statement : ∀ i : Instr, CommandWord.Statement i
  | .csumCalc  => CommandWord.csumCalc
  | .csumCheck => CommandWord.csumCheck
  | .encode    => CommandWord.encode
  | .decode    => CommandWord.decode

end Sys2Proof.Laws

namespace Sys2Proof

/-- The other half of `eq_encode_of_decodeWord`. -/
@[simp] theorem decodeWord_encode (i : Instr) : decodeWord (encode i) = .ok i := by
  obtain ⟨-, hrsvd, hop⟩ := Laws.CommandWord.statement i
  simp only [decodeWord, hrsvd, if_true, hop]

theorem encode_mem_opcodeMap (i : Instr) : encode i = 1 ∨ encode i = 2 ∨ encode i = 3 ∨ encode i = 4 :=
  match i with
  | .csumCalc  => .inl rfl
  | .csumCheck => .inr (.inl rfl)
  | .encode    => .inr (.inr (.inl rfl))
  | .decode    => .inr (.inr (.inr rfl))

end Sys2Proof

namespace Sys2Proof.Machine

theorem runCommand_of_error {v : Word} {x : IllegalWord} (h : decodeWord v = .error x) (s : State) :
    runCommand v s = .next s.illegalCommand := by
  simp only [runCommand, h]

/-! ### The statements -/

/-- Settles O2: the decoder inverts `encode`, so a word it rejects is the word of no command. -/
theorem exactlyTheEncodedWordsAreLegal : Obligations.ExactlyTheEncodedWordsAreLegal := by
  refine ⟨decodeWord_encode, fun v => ?_⟩
  cases h : decodeWord v with
  | ok i =>
    obtain rfl := eq_encode_of_decodeWord h
    exact .inl ⟨i, rfl, encode_mem_opcodeMap i⟩
  | error x =>
    refine .inr ⟨fun i hi => ?_, x, rfl⟩
    rw [hi, decodeWord_encode] at h
    cases h

/-- Settles O3: the decoder rejects such a word, and the port then reports `ILLEGAL_CMD` and runs no command. -/
theorem illegalWordSetsErrAndStickyOnly : Obligations.IllegalWordSetsErrAndStickyOnly := by
  intro s v hv
  obtain ⟨x, hx⟩ := (decodeWord_error_iff v).mpr (or_rotate.mpr hv)
  exact (step_command v s).trans (runCommand_of_error hx _)

/-- Settles O1: each of the four words is the one `encode` gives its command. -/
theorem commandWordsDecodeToTheirCommands : Obligations.CommandWordsDecodeToTheirCommands :=
  ⟨decodeWord_encode .csumCalc, decodeWord_encode .csumCheck, decodeWord_encode .encode, decodeWord_encode .decode⟩

end Sys2Proof.Machine
end

section
/-! PROOFS. The record text (30_encoding.md R90 to R99): the hex digits of a byte, the value of a digit, and the record line
that `ENCODE` leaves in the line buffer. -/

namespace Sys2Proof.Machine

/-! ### Writing hex digits (30_encoding.md R91) -/

/-- The uppercase digit of the number `n`, for `n` below 16. -/
def hexDigit (n : Nat) : Byte := if n ≤ 9 then BitVec.ofNat 8 (0x30 + n) else BitVec.ofNat 8 (0x41 + (n - 10))

theorem hexchar_eq_hexDigit (n : BitVec 4) : hexchar n = hexDigit n.toNat := rfl

theorem highNibble_toNat (v : Byte) : (highNibble v).toNat = v.toNat / 16 := by
  have hv := v.isLt
  rw [highNibble, BitVec.extractLsb'_toNat, Nat.shiftRight_eq_div_pow]
  omega

theorem lowNibble_toNat (v : Byte) : (lowNibble v).toNat = v.toNat % 16 := by
  rw [lowNibble, BitVec.extractLsb'_toNat, Nat.shiftRight_zero]

theorem hex2_eq_hexDigits (v : Byte) : hex2 v = [hexDigit (v.toNat / 16), hexDigit (v.toNat % 16)] := by
  rw [hex2, hexchar_eq_hexDigit, hexchar_eq_hexDigit, highNibble_toNat, lowNibble_toNat]

theorem hex4_eq_hexDigits (v : Half) :
    hex4 v = [hexDigit (v.toNat / 4096), hexDigit (v.toNat / 256 % 16), hexDigit (v.toNat / 16 % 16),
      hexDigit (v.toNat % 16)] := by
  have hthird : v.toNat % 256 / 16 = v.toNat / 16 % 16 := by omega
  have hlast : v.toNat % 256 % 16 = v.toNat % 16 := by omega
  rw [hex4, hex2_eq_hexDigits, hex2_eq_hexDigits, offsetHigh_toNat, offsetLow_toNat, Nat.div_div_eq_div_mul, hthird, hlast]
  rfl

/-! ### Reading hex digits (30_encoding.md R94) -/

theorem hexval_decimal {c : Byte} (h : 0x30 ≤ c.toNat ∧ c.toNat ≤ 0x39) :
    hexval c = some (BitVec.ofNat 4 (c.toNat - 0x30)) :=
  if_pos h

theorem hexval_upper {c : Byte} (h : 0x41 ≤ c.toNat ∧ c.toNat ≤ 0x46) :
    hexval c = some (BitVec.ofNat 4 (c.toNat - 0x41 + 10)) := by
  rw [hexval, if_neg (by omega), if_pos h]

theorem hexval_lower {c : Byte} (h : 0x61 ≤ c.toNat ∧ c.toNat ≤ 0x66) :
    hexval c = some (BitVec.ofNat 4 (c.toNat - 0x61 + 10)) := by
  rw [hexval, if_neg (by omega), if_neg (by omega), if_pos ⟨rfl, h⟩]

/-- Every code outside the three ranges is a non-hex character. -/
theorem hexval_nonHex {c : Byte}
    (h : c.toNat < 0x30 ∨ (0x39 < c.toNat ∧ c.toNat < 0x41) ∨ (0x46 < c.toNat ∧ c.toNat < 0x61) ∨ 0x66 < c.toNat) :
    hexval c = none := by
  rw [hexval, if_neg (by omega), if_neg (by omega), if_neg (by omega)]

/-! ### The statements -/

/-- Settles O26: up to `TLEN` the line buffer holds `Record.lineText`, the line of 30_encoding.md R90. -/
theorem encodedTextIsTheRecordLine : Obligations.EncodedTextIsTheRecordLine :=
  fun _ _ h => (execEncode_line h).1

/-- Settles O24: `hex2_eq_hexDigits` for a byte, and `hex4_eq_hexDigits` for the two bytes of an offset. -/
theorem hexTextIsUppercaseFixedWidth : Obligations.HexTextIsUppercaseFixedWidth :=
  ⟨hex2_eq_hexDigits, hex4_eq_hexDigits⟩

/-- Settles O27: the record line of O26 at the fields of the EndOfFile record, which has no data bytes. -/
theorem endOfFileLineIsFixed : Obligations.EndOfFileLineIsFixed := by
  intro s t hlen hoffset htype hcsum h
  have hdata : s.record.data.bytes.take (0 : Byte).toNat = [] := List.take_zero
  rw [encodedTextIsTheRecordLine s t h, hlen, hoffset, htype, hcsum, hdata]
  decide

/-- Settles O29: one lemma for each of the three ranges of digits, and one for the codes outside them. -/
theorem hexvalOfEveryCode : Obligations.HexvalOfEveryCode :=
  fun _ => ⟨hexval_decimal, hexval_upper, hexval_lower, hexval_nonHex⟩

end Sys2Proof.Machine
end

section
/-! PROOFS. The checksum commands (40_checksum.md R120 to R127): the number both of them compute, and the state each leaves. -/

namespace Sys2Proof.Machine

/-- `csum()` as a number, from the fields and the data slots as 40_checksum.md R120 prints them. -/
theorem Record.checksum_toNat_eq_fields (r : Record) :
    r.checksum.toNat = (256 - (r.len.toNat + r.offset.toNat / 256 + r.offset.toNat % 256 + r.type.toNat +
      ∑ k : Fin Config.dataCap, if k.val < r.len.toNat then (r.data.get k).toNat else 0) % 256) % 256 := by
  rw [Record.checksum_toNat, Record.sum8_eq]

/-- The whole of `CSUM_CALC` (40_checksum.md R125). -/
theorem exec_csumCalc (s : State) :
    exec .csumCalc s = .next { s with record.csum := s.record.checksum, csumResult := s.record.checksum,
                                      status := s.status.setOk } := rfl

/-- The whole of `CSUM_CHECK` (40_checksum.md R126). -/
theorem exec_csumCheck (s : State) :
    exec .csumCheck s = .next { s with csumResult := s.record.checksum,
                                       status := (s.status.setCkok (s.record.checksum == s.record.csum)).setOk } := rfl

/-! ### The statements -/

/-- Settles O18: `CSUM_CALC` stores `Record.checksum` of the record it finds, whose number is the one R120 prints. -/
theorem csumCalcStoresTheChecksum : Obligations.CsumCalcStoresTheChecksum :=
  ⟨decodeWord_encode .csumCalc, fun s => ⟨s.record.checksum, s.record.checksum_toNat_eq_fields, exec_csumCalc s⟩⟩

/-- Settles O19: `CSUM_CHECK` computes the same number and compares it with the stored checksum, writing only `CKOK` and
`ERR` of `STATUS`. -/
theorem csumCheckComparesWithTheStored : Obligations.CsumCheckComparesWithTheStored :=
  ⟨decodeWord_encode .csumCheck, fun s => ⟨s.record.checksum, s.record.checksum_toNat_eq_fields, exec_csumCheck s⟩⟩

end Sys2Proof.Machine
end

section
/-! PROOFS. The transcoder commands (41_transcoder.md R140 to R155): what `ENCODE` writes where, which line `DECODE` commits
and as which record, and which error it reports of any other. -/

namespace Sys2Proof.Machine

/-! ### `ENCODE` -/

/-- The whole of `ENCODE` (41_transcoder.md R140). -/
theorem exec_encode (s : State) :
    exec .encode s = .next { s with text := overwrite s.text s.record.lineText,
                                    tlen := BitVec.ofNat 10 (13 + 2 * s.record.len.toNat), status := s.status.setOk } := rfl

/-- Every slot past the line's length keeps its value (41_transcoder.md R141). -/
theorem overwrite_lineText_past (s : State) {j : Nat} (h : 13 + 2 * s.record.len.toNat ≤ j) :
    (overwrite s.text s.record.lineText).bytes[j]? = s.text.bytes[j]? := by
  rw [overwrite_getElem?, Record.lineText_length, if_neg (by omega)]

/-- The pair of data slot `k` stands at `9+2k` and after it (30_encoding.md R97). -/
theorem Record.lineText_dataSlot (r : Record) (k : Fin Config.dataCap) (h : k.val < r.len.toNat) :
    r.lineText[9 + 2 * k.val]? = some (hexchar (highNibble (r.data.get k))) ∧
      r.lineText[9 + 2 * k.val + 1]? = some (hexchar (lowNibble (r.data.get k))) := by
  have hk : k.val < r.dataBytes.length := by rwa [Record.dataBytes_length]
  have hbyte : r.dataBytes[k.val] = r.data.get k := by
    rw [← Option.some.injEq, ← List.getElem?_eq_getElem hk, Record.dataBytes_getElem?, if_pos h, Slots.getElem?_bytes]
  rw [← hbyte, show 9 + 2 * k.val + 1 = 10 + 2 * k.val by omega]
  exact r.lineText_data k.val hk

/-! ### The line that `DECODE` commits (41_transcoder.md R150 to R155) -/

/-- The line of `s` spells the record `p`: it fits the buffer, it begins with the mark, and the byte-pairs of `p` stand at
their positions. -/
structure State.Spells (s : State) (p : ParsedRecord) : Prop where
  fits       : s.tlen.toNat ≤ Config.textCap
  mark       : s.charAt 0 = some codeColon
  len        : s.pairAt 1 = some p.len
  high       : s.pairAt 3 = some (offsetHigh p.offset)
  low        : s.pairAt 5 = some (offsetLow p.offset)
  type       : s.pairAt 7 = some p.type
  dataLength : p.data.length = p.len.toNat
  data       : ∀ k, k < p.len.toNat → s.pairAt (9 + 2 * k) = p.data[k]?
  csum       : s.pairAt (9 + 2 * p.len.toNat) = some p.csum

/-- The parser reads the record that the line spells, and none from a line that spells none. -/
theorem State.parse_eq_ok_iff {s : State} {p : ParsedRecord} : s.parse = .ok p ↔ s.Spells p := by
  constructor
  · intro h
    have hfits := (State.parse_ok_passes h).1
    rw [State.parse_eq hfits] at h
    obtain ⟨hmark, hlen, ⟨oh, ol, hoh, hol, hoffset⟩, htype, hdata, hcsum⟩ := parseLine_ok.mp h
    obtain ⟨hlength, hpairs⟩ := parseBytes_ok.mp hdata
    refine ⟨hfits, ?_, State.pairAt_eq_some.mpr hlen, ?_, ?_, State.pairAt_eq_some.mpr htype, hlength, fun k hk => ?_,
      State.pairAt_eq_some.mpr hcsum⟩
    · rw [State.charAt_eq, parseMark_ok.mp hmark]
    · rw [hoffset, offsetHigh_halfOfBytes, State.pairAt_eq_some.mpr hoh]
    · rw [hoffset, offsetLow_halfOfBytes, State.pairAt_eq_some.mpr hol]
    · have hk' : k < p.data.length := by rwa [hlength]
      rw [List.getElem?_eq_getElem hk', State.pairAt_eq_some.mpr (hpairs k hk')]
  · intro h
    rw [State.parse_eq h.fits]
    refine parseLine_ok.mpr ⟨parseMark_ok.mpr ((s.charAt_eq 0).symm.trans h.mark), State.pairAt_eq_some.mp h.len,
      ⟨_, _, State.pairAt_eq_some.mp h.high, State.pairAt_eq_some.mp h.low, (halfOfBytes_offset _).symm⟩,
      State.pairAt_eq_some.mp h.type, parseBytes_ok.mpr ⟨h.dataLength, fun k hk => ?_⟩, State.pairAt_eq_some.mp h.csum⟩
    rw [← State.pairAt_eq_some, h.data k (h.dataLength ▸ hk), List.getElem?_eq_getElem hk]

/-- A commit writes the data slots below the new length (41_transcoder.md R152). -/
theorem State.Spells.commit_data {s : State} {p : ParsedRecord} (h : s.Spells p) {k : Nat} (hk : k < p.len.toNat) :
    (s.commitRecord p).record.data.bytes[k]? = p.data[k]? := by
  have hlt := p.len.isLt
  rw [State.commitRecord_record, overwrite_getElem?, h.dataLength, if_pos ⟨hk, by unfold Config.dataCap; omega⟩]

/-- A commit keeps the data slots from the new length on (41_transcoder.md R152). -/
theorem State.Spells.commit_data_past {s : State} {p : ParsedRecord} (h : s.Spells p) {k : Nat} (hk : p.len.toNat ≤ k) :
    (s.commitRecord p).record.data.bytes[k]? = s.record.data.bytes[k]? := by
  rw [State.commitRecord_record, overwrite_getElem?, h.dataLength, if_neg (by omega)]

/-! ### The error that `DECODE` reports (41_transcoder.md R145 to R149) -/

/-- The parser answers a record exactly when every needed position of a line that fits passes (41_transcoder.md R150). -/
theorem State.parse_ok_iff_passes {s : State} :
    (∃ p, s.parse = .ok p) ↔ s.tlen.toNat ≤ Config.textCap ∧ ∀ p, s.needs p → s.passes p = true := by
  simp only [State.needs_iff]
  constructor
  · rintro ⟨p, h⟩
    exact State.parse_ok_passes h
  · rintro ⟨hfits, hpass⟩
    cases h : s.parse with
    | ok p => exact ⟨p, rfl⟩
    | error e =>
      obtain ⟨htlen, -⟩ | ⟨-, hneeded, hfail, -⟩ := State.parse_error h
      · omega
      · rw [hpass _ hneeded] at hfail
        cases hfail

/-- The parser raises the error of the lowest needed position that fails (41_transcoder.md R149). -/
theorem State.parse_of_lowest_failing {s : State} {p : Nat} (hfits : s.tlen.toNat ≤ Config.textCap) (hneeds : s.needs p)
    (hbelow : ∀ q, q < p → s.passes q = true) (hfail : s.passes p = false) :
    s.parse = .error { code := s.failure p, pos := p } := by
  cases h : s.parse with
  | ok r =>
    rw [(State.parse_ok_iff_passes.mp ⟨r, h⟩).2 p hneeds] at hfail
    cases hfail
  | error e =>
    obtain ⟨code, pos⟩ := e
    obtain ⟨htlen, -⟩ | ⟨-, -, hfail', hbelow', hcode⟩ := State.parse_error h
    · omega
    · obtain rfl : pos = p := by
        rcases Nat.lt_trichotomy pos p with hlt | heq | hgt
        · simp [hbelow pos hlt] at hfail'
        · exact heq
        · simp [hbelow' p hgt] at hfail
      obtain rfl : code = s.failure pos := hcode
      rfl

theorem State.failure_value (s : State) (p : Nat) :
    (s.failure p).value = if s.tlen.toNat ≤ p then 4 else if p = 0 then 2 else 3 := by
  unfold State.failure
  split
  · rfl
  · split <;> rfl

/-- A failed parse reports no `ERR = 0`. -/
theorem State.parse_error_value_ne_zero {s : State} {e : DecodeError} (h : s.parse = .error e) : e.code.value ≠ 0 := by
  rcases State.parse_error_code h with hc | hc | hc | hc <;> rw [hc] <;> decide

/-! ### What `DECODE` reads (41_transcoder.md R146, R153) -/

/-- The parser reads the positions below `TLEN` and no position past the checksum pair. -/
theorem State.parse_withText {s : State} {text' : Slots Config.textCap}
    (h : ∀ j, j < s.tlen.toNat → (∀ ll, s.pairAt 1 = some ll → j < 11 + 2 * ll.toNat) →
      text'.bytes[j]? = s.text.bytes[j]?) : State.parse { s with text := text' } = s.parse := by
  by_cases htlen : Config.textCap < s.tlen.toNat
  · exact (State.parse_badTlen (s := { s with text := text' }) htlen).trans (State.parse_badTlen htlen).symm
  · have hfits := Nat.not_lt.mp htlen
    rw [State.parse_eq hfits, State.parse_eq (s := { s with text := text' }) hfits]
    refine parseLine_congr fun q hq => ?_
    rw [← State.charAt_eq, ← State.charAt_eq]
    unfold State.charAt
    split
    case isTrue hlt => exact h q hlt fun ll hll => hq ll (State.pairAt_eq_some.mp hll)
    case isFalse => rfl

/-- `DECODE` writes what it parsed and reads nothing else of the line buffer. -/
theorem execDecode_withText {s t : State} {text' : Slots Config.textCap}
    (hparse : State.parse { s with text := text' } = s.parse) (h : execDecode s = .next t) :
    execDecode { s with text := text' } = .next { t with text := text' } := by
  obtain ⟨p, hp, rfl⟩ | ⟨e, he, rfl⟩ := execDecode_cases h
  · exact execDecode_of_ok (hparse.trans hp)
  · exact execDecode_of_error (hparse.trans he)

/-! ### The statements -/

/-- Settles O25: below `13 + 2L` the buffer holds `Record.lineText`, whose head, data pairs and end stand where R97 says. -/
theorem encodeWritesTheLineAndNothingElse : Obligations.EncodeWritesTheLineAndNothingElse := by
  refine ⟨decodeWord_encode .encode, fun s => ⟨_, exec_encode s, ?_⟩⟩
  have hhead := fun j (hj : j < 9) => (overwrite_lineText s j (by omega)).trans (s.record.lineText_head j hj)
  have hline : ∀ {j : Nat} {c : Byte}, j < 13 + 2 * s.record.len.toNat → s.record.lineText[j]? = some c →
      (overwrite s.text s.record.lineText).bytes[j]? = some c := fun hj hc => (overwrite_lineText s _ hj).trans hc
  obtain ⟨hcsum, hcsum', hcr, hlf⟩ := s.record.lineText_end
  rw [show 10 + 2 * s.record.len.toNat = 9 + 2 * s.record.len.toNat + 1 by omega] at hcsum'
  refine ⟨rfl, hhead 0 (by decide), ⟨hhead 1 (by decide), hhead 2 (by decide)⟩, ⟨hhead 3 (by decide), hhead 4 (by decide)⟩,
    ⟨hhead 5 (by decide), hhead 6 (by decide)⟩, ⟨hhead 7 (by decide), hhead 8 (by decide)⟩, fun k hk => ?_,
    ⟨hline (by omega) hcsum, hline (by omega) hcsum'⟩, hline (by omega) hcr, hline (by omega) hlf, tlen_of_len _,
    fun j hj => overwrite_lineText_past s hj⟩
  obtain ⟨hhigh, hlow⟩ := s.record.lineText_dataSlot k hk
  exact ⟨hline (by omega) hhigh, hline (by omega) hlow⟩

/-- Settles O30: the given byte-pairs are those of one parsed record, which `DECODE` commits. -/
theorem decodeCommitsTheParsedRecord : Obligations.DecodeCommitsTheParsedRecord := by
  intro s ll oh ol ty cs d hfits hmark hlen hhigh hlow htype hdata hcsum
  have hspells : s.Spells
      { len := ll, offset := halfOfBytes oh ol, type := ty, data := (List.range ll.toNat).map d, csum := cs } := by
    refine ⟨hfits, hmark, hlen, ?_, ?_, htype, by simp, fun k hk => ?_, hcsum⟩
    · rw [hhigh, offsetHigh_halfOfBytes]
    · rw [hlow, offsetLow_halfOfBytes]
    · rw [hdata k hk]
      simp [hk]
  refine ⟨_, execDecode_of_ok (State.parse_eq_ok_iff.mpr hspells), rfl, halfOfBytes_toNat oh ol, rfl, rfl, fun k hk => ?_,
    fun k hk => hspells.commit_data_past hk, rfl⟩
  rw [hspells.commit_data hk, ← hspells.data k hk, hdata k hk]

/-- Settles O32: the parser's error is the one of the lowest failing position, and where none of the first `11 + 2·ll` fails it
has read those alone. -/
theorem decodeReportsTheLowestFailingPosition : Obligations.DecodeReportsTheLowestFailingPosition := by
  intro s
  refine ⟨fun htlen => execDecode_of_error (State.parse_badTlen htlen), fun p hfits hneeds hbelow hfail => ?_,
    fun ll hfits hlen hpass => ?_⟩
  · rw [← State.failure_value]
    exact execDecode_of_error (State.parse_of_lowest_failing hfits hneeds hbelow hfail)
  · have hneeded : ∀ p, s.needs p → s.passes p = true := by
      rintro p (hp | ⟨l, hl, hp⟩)
      · exact hpass p (by omega)
      · obtain rfl : ll = l := Option.some.inj (hlen.symm.trans hl)
        exact hpass p (by omega)
    obtain ⟨r, hr⟩ := State.parse_ok_iff_passes.mpr ⟨hfits, hneeded⟩
    refine ⟨_, execDecode_of_ok hr, rfl, fun text' htext => execDecode_withText ?_ (execDecode_of_ok hr)⟩
    exact State.parse_withText fun j _ hj => htext j (hj ll hlen)

/-- Settles O33: the parser answers a record exactly when all needed positions pass; that record is the one the line spells. -/
theorem decodeSucceedsExactlyWhenAllPositionsPass : Obligations.DecodeSucceedsExactlyWhenAllPositionsPass := by
  intro s
  cases h : s.parse with
  | ok p =>
    have hspells := State.parse_eq_ok_iff.mp h
    refine ⟨_, execDecode_of_ok h, iff_of_true rfl (State.parse_ok_iff_passes.mp ⟨p, h⟩), fun _ => ?_,
      fun herr => absurd rfl herr⟩
    refine ⟨hspells.len, hspells.type, hspells.high, hspells.low, fun k hk => ?_, fun k hk => ?_, hspells.csum,
      rfl⟩
    · rw [hspells.data k hk, ← hspells.commit_data hk, Slots.getElem?_bytes]
    · have hkept := hspells.commit_data_past hk
      rwa [Slots.getElem?_bytes, Slots.getElem?_bytes, Option.some.injEq] at hkept
  | error e =>
    have herr := State.parse_error_value_ne_zero h
    refine ⟨_, execDecode_of_error h, iff_of_false herr fun hpass => ?_, fun hok => absurd hok herr, fun _ => rfl⟩
    obtain ⟨p, hp⟩ := State.parse_ok_iff_passes.mpr hpass
    rw [h] at hp
    cases hp

/-- Settles O31: the parser raises `BAD_TLEN` before it looks at the line, so the answer is the same for every `TEXT`. -/
theorem decodeRejectsTlenAboveCapacity : Obligations.DecodeRejectsTlenAboveCapacity :=
  fun s htlen text' => execDecode_of_error (s := { s with text := text' }) (State.parse_badTlen htlen)

/-- Settles O36: `DECODE` commits a record or reports an error, and neither of the two writes these registers. -/
theorem decodeCompletesAndKeepsTheLineBuffer : Obligations.DecodeCompletesAndKeepsTheLineBuffer := by
  intro s
  obtain ⟨t, ht⟩ := exec_total .decode s
  refine ⟨t, ht, ?_⟩
  obtain ⟨p, -, rfl⟩ | ⟨e, -, rfl⟩ := execDecode_cases ht
  · exact ⟨rfl, rfl, rfl, rfl, rfl⟩
  · exact ⟨rfl, rfl, rfl, rfl, rfl⟩

end Sys2Proof.Machine
end

section
/-! PROOFS. The error report (60_exceptions.md R183 to R187): what a command word, a transaction and a step leave in `ERR` and
`ESTKY`. -/

namespace Sys2Proof.Machine

/-! ### What a command leaves in `ERR` and `ESTKY` -/

/-- The numbers a failed parse leaves in `ERR` (60_exceptions.md R180). -/
theorem State.parse_error_value {s : State} {e : DecodeError} (h : s.parse = .error e) :
    e.code.value = 2 ∨ e.code.value = 3 ∨ e.code.value = 4 ∨ e.code.value = 5 := by
  rcases State.parse_error_code h with hc | hc | hc | hc <;> rw [hc] <;> decide

/-- A legal command leaves `ERR = 0` and keeps `ESTKY` (R183), unless it is a `DECODE` that raises an error (R185). -/
theorem exec_error_cases {i : Instr} {s t : State} (h : exec i s = .next t) :
    (t.status.err = 0 ∧ t.status.estky = s.status.estky) ∨
      (i = .decode ∧ ∃ e, s.parse = .error e ∧ t = s.raiseDecodeError e) := by
  cases i with
  | csumCalc => cases h; exact .inl ⟨rfl, rfl⟩
  | csumCheck => cases h; exact .inl ⟨rfl, rfl⟩
  | encode => cases h; exact .inl ⟨rfl, rfl⟩
  | decode =>
    obtain ⟨p, -, rfl⟩ | ⟨e, he, rfl⟩ := execDecode_cases h
    · exact .inl ⟨rfl, rfl⟩
    · exact .inr ⟨rfl, e, he, rfl⟩

/-- Of the four commands only `DECODE` ends with an error (R180). -/
theorem exec_err_of_ne_decode {i : Instr} {s t : State} (hi : i ≠ .decode) (h : exec i s = .next t) :
    t.status.err = 0 := by
  obtain ⟨herr, -⟩ | ⟨hd, -⟩ := exec_error_cases h
  · exact herr
  · exact absurd hd hi

theorem exec_decode_err {s t : State} (h : exec .decode s = .next t) :
    t.status.err = 0 ∨ t.status.err = 2 ∨ t.status.err = 3 ∨ t.status.err = 4 ∨ t.status.err = 5 := by
  obtain ⟨herr, -⟩ | ⟨-, e, he, rfl⟩ := exec_error_cases h
  · exact .inl herr
  · exact .inr (State.parse_error_value he)

/-- A command that ends with an error sets `ESTKY`, and one that does not keeps it (R186). -/
theorem exec_estky {i : Instr} {s t : State} (h : exec i s = .next t)
    (hset : t.status.err ≠ 0 ∨ s.status.estky = true) : t.status.estky = true := by
  obtain ⟨herr, hkept⟩ | ⟨-, e, -, rfl⟩ := exec_error_cases h
  · rw [hkept]
    exact hset.resolve_left (not_not_intro herr)
  · rfl

/-- No command reads `ERR`, and each writes all of it: the `ERR` before leaves no trace in the state (R183). -/
theorem exec_withErr (i : Instr) (s : State) (e : BitVec 4) : exec i { s with status.err := e } = exec i s := by
  cases i with
  | csumCalc => rfl
  | csumCheck => rfl
  | encode => rfl
  | decode =>
    have hparse : State.parse { s with status.err := e } = s.parse := rfl
    show execDecode _ = execDecode s
    cases h : s.parse with
    | ok p => rw [execDecode_of_ok h, execDecode_of_ok (hparse.trans h)]; rfl
    | error x => rw [execDecode_of_error h, execDecode_of_error (hparse.trans h)]; rfl

/-! ### What a command word leaves in `ERR` and `ESTKY` -/

@[simp] theorem runCommand_encode (i : Instr) (s : State) : runCommand (encode i) s = exec i s := by
  simp only [runCommand, decodeWord_encode]

/-- Every command word, legal or not, is answered (R183). -/
theorem runCommand_total (v : Word) (s : State) : ∃ t, runCommand v s = .next t := by
  cases h : decodeWord v with
  | ok i =>
    obtain rfl := eq_encode_of_decodeWord h
    rw [runCommand_encode]
    exact exec_total i s
  | error x => exact ⟨_, runCommand_of_error h s⟩

theorem runCommand_estky {v : Word} {s t : State} (h : runCommand v s = .next t)
    (hset : t.status.err ≠ 0 ∨ s.status.estky = true) : t.status.estky = true := by
  cases hv : decodeWord v with
  | ok i =>
    obtain rfl := eq_encode_of_decodeWord hv
    rw [runCommand_encode] at h
    exact exec_estky h hset
  | error x =>
    rw [runCommand_of_error hv] at h
    cases h
    rfl

theorem runCommand_withErr (v : Word) (s : State) (e : BitVec 4) :
    runCommand v { s with status.err := e } = runCommand v s := by
  cases h : decodeWord v with
  | ok i =>
    obtain rfl := eq_encode_of_decodeWord h
    rw [runCommand_encode, runCommand_encode, exec_withErr]
  | error x =>
    rw [runCommand_of_error h, runCommand_of_error h]
    rfl

/-- A word outside the opcode map leaves `ILLEGAL_CMD` in `ERR` (R187). -/
theorem runCommand_err_of_illegal {v : Word} {s t : State} (h : runCommand v s = .next t)
    (hv : ¬(v = 1 ∨ v = 2 ∨ v = 3 ∨ v = 4)) : t.status.err = 1 := by
  cases hd : decodeWord v with
  | ok i =>
    obtain rfl := eq_encode_of_decodeWord hd
    exact absurd (encode_mem_opcodeMap i) hv
  | error x =>
    rw [runCommand_of_error hd] at h
    cases h
    rfl

/-! ### What an event at the port leaves in `ESTKY` -/

/-- Nothing but a reset clears `ESTKY` (R186). -/
theorem Served.estky {e : PortEvent} {s t : State} (h : Served e s t) (he : e ≠ .reset) (hs : s.status.estky = true) :
    t.status.estky = true := by
  cases h with
  | reset hreset ht => exact absurd hreset he
  | read r _ ht => rw [ht]; exact hs
  | store r v _ _ ht =>
    obtain ⟨-, hstatus, -⟩ := storeReg_frame r v s
    rw [ht, State.respond_status, hstatus]
    exact hs
  | command v i _ _ ht => exact exec_estky ht (.inr hs)
  | illegal v x _ _ ht => rw [ht]; rfl

/-! ### The statements -/

/-- Settles O35: a `DECODE` that does not leave `ERR = 0` has raised an error, which writes these three fields alone. -/
theorem failingDecodeWritesOnlyTheError : Obligations.FailingDecodeWritesOnlyTheError := by
  intro s t h herr
  obtain ⟨hok, -⟩ | ⟨-, e, he, rfl⟩ := exec_error_cases h
  · exact absurd hok herr
  · exact ⟨rfl, State.parse_error_value he⟩

/-- Settles O43: a command word sets `ESTKY` with its error, every event but a reset keeps it, and a reset writes it 0. -/
theorem stickyErrorIsClearedOnlyByReset : Obligations.StickyErrorIsClearedOnlyByReset := by
  refine ⟨fun s t v h herr => ?_, fun s t h hs hhead => ?_, fun s t h => ?_⟩
  · exact runCommand_estky ((step_command v s).symm.trans h) (.inl herr)
  · obtain ⟨-, rfl⟩ | ⟨e, rest, hpending, hserved⟩ := step_next h
    · exact hs
    · refine hserved.estky (fun he => hhead ?_) hs
      rw [hpending, he]
      rfl
  · cases h
    rfl

/-- Settles O46: the word runs a command or is illegal, and either way `ERR` is written from what the command found, never from
the `ERR` before. -/
theorem everyCommandWriteSetsErr : Obligations.EveryCommandWriteSetsErr := by
  intro s v
  obtain ⟨t, ht⟩ := runCommand_total v (s.respond .writeDone)
  refine ⟨t, (step_command v s).trans ht, fun hv => ?_, fun hv => ?_, fun h1 h2 h3 h4 => ?_, fun e => ⟨t, ?_, rfl⟩⟩
  · obtain ⟨i, hi, rfl⟩ : ∃ i, i ≠ .decode ∧ v = encode i := by
      rcases hv with rfl | rfl | rfl
      · exact ⟨.csumCalc, nofun, rfl⟩
      · exact ⟨.csumCheck, nofun, rfl⟩
      · exact ⟨.encode, nofun, rfl⟩
    exact exec_err_of_ne_decode hi ((runCommand_encode i _).symm.trans ht)
  · obtain rfl : v = encode .decode := hv
    exact exec_decode_err ((runCommand_encode .decode _).symm.trans ht)
  · exact runCommand_err_of_illegal ht (by rintro (hv | hv | hv | hv) <;> contradiction)
  · exact (step_command v _).trans ((runCommand_withErr v (s.respond .writeDone) e).trans ht)

end Sys2Proof.Machine
end

section
/-! PROOFS. The round trips between records and lines (30_encoding.md R100, 41_transcoder.md R156, R157): `DECODE` reads back
every line that `ENCODE` writes, and `ENCODE` writes again every record line that `DECODE` reads. -/

namespace Sys2Proof.Machine

/-! ### What `DECODE` makes of a record line -/

/-- What the parser reads from the line of `r`: the record but for the slots beyond its length. -/
def Record.parsed (r : Record) : ParsedRecord where
  len    := r.len
  offset := r.offset
  type   := r.type
  data   := r.dataBytes
  csum   := r.csum

/-- `DECODE` of a record line commits that record (41_transcoder.md R150). -/
theorem execDecode_of_line {s : State} {r : Record} (htlen : s.tlen.toNat = 13 + 2 * r.len.toNat)
    (hline : s.line = r.lineText) : execDecode s = .next (s.commitRecord r.parsed) := by
  have hfits := r.lineText_fits
  rw [Record.lineText_length, ← htlen] at hfits
  refine execDecode_of_ok ?_
  rw [State.parse_eq hfits, hline, parseLine_lineText, Record.parsed]

/-- `DECODE` after `ENCODE` commits the record that the block still holds. -/
theorem execDecode_of_execEncode {s t : State} (h : execEncode s = .next t) :
    execDecode t = .next (t.commitRecord s.record.parsed) := by
  obtain ⟨hline, htlen⟩ := execEncode_line h
  exact execDecode_of_line htlen hline

/-- Committing the record that already stands in the registers changes none of them: the data bytes go back to their own
slots. -/
theorem State.commitRecord_parsed_self {s : State} {r : Record} (h : s.record = r) :
    (s.commitRecord r.parsed).record = r := by
  subst h
  rw [State.commitRecord_record, Record.parsed, Record.dataBytes, overwrite_self]

/-- A committed record has the line that it was parsed from, whatever the slots beyond its length held before. -/
theorem State.commitRecord_lineText (s : State) (r : Record) : (s.commitRecord r.parsed).record.lineText = r.lineText := by
  have hfits : r.dataBytes.length ≤ s.record.data.bytes.length := by
    have hlen := r.len.isLt
    rw [Record.dataBytes_length, Slots.length_bytes]
    unfold Config.dataCap
    omega
  have hdata : (s.commitRecord r.parsed).record.dataBytes = r.dataBytes := by
    have htake := overwriteList_take _ _ hfits
    rwa [Record.dataBytes_length] at htake
  rw [Record.lineText, hdata]
  rfl

/-! ### What `CSUM_CHECK` makes of a decoded line -/

/-- `CSUM_CALC` leaves the computed checksum in `REC_CSUM` (40_checksum.md R125). -/
theorem exec_csumCalc_record {s t : State} (h : exec .csumCalc s = .next t) : t.record.checksum = t.record.csum := by
  cases h
  rfl

/-- `CSUM_CHECK` of a record that stores its checksum sets `CKOK` and clears `ERR` (40_checksum.md R126). -/
theorem exec_csumCheck_of_checksum {s : State} (h : s.record.checksum = s.record.csum) :
    exec .csumCheck s = .next { s with csumResult := s.record.checksum, status := (s.status.setCkok true).setOk } := by
  rw [exec_csumCheck, h, beq_self_eq_true]

theorem Record.checksumValid_iff (r : Record) : r.checksumValid = true ↔ (r.sum8 + r.csum.toNat) % 256 = 0 :=
  beq_iff_eq

/-! ### The position of a `TRUNCATED` error -/

/-- A position at or past `TLEN` does not pass (41_transcoder.md R146). -/
theorem State.passes_past_tlen {s : State} {p : Nat} (h : s.tlen.toNat ≤ p) : s.passes p = false := by
  rw [State.passes, State.charAt, if_neg (by omega)]

/-- The first missing character is the one at `TLEN`, where every position below has passed. -/
theorem State.parse_error_truncated {s : State} {e : DecodeError} (h : s.parse = .error e) (hcode : e.code = .truncated) :
    e.pos = s.tlen.toNat := by
  obtain ⟨-, rfl⟩ | ⟨-, -, -, hbelow, hfailure⟩ := State.parse_error h
  · cases hcode
  · have hreached : s.tlen.toNat ≤ e.pos := by
      by_contra hlt
      rw [hcode, State.failure, if_neg hlt] at hfailure
      split at hfailure <;> cases hfailure
    have hnotPast : ¬s.tlen.toNat < e.pos := fun hlt => by
      have hpass := hbelow _ hlt
      rw [State.passes_past_tlen (Nat.le_refl _)] at hpass
      cases hpass
    omega

theorem ErrCode.eq_truncated_of_value {c : ErrCode} (h : c.value = 4) : c = .truncated := by
  cases c with
  | truncated => rfl
  | _ => cases h

/-! ### The characters of a line -/

/-- A hex digit of the block is a decimal digit or an uppercase letter (30_encoding.md R91, R93). -/
theorem hexchar_code (n : BitVec 4) :
    (0x30 ≤ (hexchar n).toNat ∧ (hexchar n).toNat ≤ 0x39) ∨ (0x41 ≤ (hexchar n).toNat ∧ (hexchar n).toNat ≤ 0x46) := by
  revert n
  decide

/-! ### The statements -/

/-- Settles O38: `DECODE` parses the line of the record that still stands in the registers, and its commit writes each byte
back to its own place. -/
theorem decodeOfEncodeIsTheSameRecord : Obligations.DecodeOfEncodeIsTheSameRecord := by
  intro s
  obtain ⟨t, ht⟩ := exec_total .encode s
  have hrecord : t.record = s.record := by cases ht; rfl
  exact ⟨t, _, ht, execDecode_of_execEncode ht, State.commitRecord_parsed_self hrecord, rfl, rfl, rfl, rfl⟩

/-- Settles O39: the committed record has the line it was parsed from, so `ENCODE` writes over the buffer the characters that
stand there. -/
theorem encodeOfDecodeIsTheSameLine : Obligations.EncodeOfDecodeIsTheSameLine := by
  intro s r htlen htext
  have hline : s.line = r.lineText := htext
  refine ⟨_, _, execDecode_of_line htlen hline, rfl, exec_encode _, ?_, ?_⟩
  · rw [State.commitRecord_lineText, ← hline]
    exact overwrite_self _ _
  · show BitVec.ofNat 10 (13 + 2 * r.len.toNat) = s.tlen
    rw [← htlen, BitVec.ofNat_toNat, BitVec.setWidth_eq]

/-- Settles O40: the line decodes to the record that `CSUM_CALC` left (O38), and that record stores its checksum. -/
theorem emittedLineDecodesAndChecksOut : Obligations.EmittedLineDecodesAndChecksOut := by
  intro s
  obtain ⟨t, ht⟩ := exec_total .csumCalc s
  obtain ⟨u, v, hu, hv, hrecord, -⟩ := decodeOfEncodeIsTheSameRecord t
  refine ⟨t, u, v, _, ht, hu, hv, exec_csumCheck_of_checksum ?_, hrecord, rfl, rfl⟩
  rw [hrecord]
  exact exec_csumCalc_record ht

/-- Settles O56: `ENCODE` leaves the record's line, and records with one line are checksum-valid together. -/
theorem wellFormedLinesComeOnlyFromValidRecords : Obligations.WellFormedLinesComeOnlyFromValidRecords := by
  intro s t h
  obtain ⟨hline, -⟩ := execEncode_line h
  refine ⟨⟨s.record, hline⟩, Iff.trans ?_ s.record.checksumValid_iff⟩
  constructor
  · rintro ⟨r, hvalid, hr⟩
    rwa [Record.checksumValid_of_lineText (hline.symm.trans hr)]
  · exact fun hvalid => ⟨s.record, hvalid, hline⟩

/-- Settles O28: below CR LF every character of the line after the mark is some `hexchar`. -/
theorem encodeEmitsOnlyUppercaseHexDigits : Obligations.EncodeEmitsOnlyUppercaseHexDigits := by
  intro s t h j hpos hj
  obtain ⟨-, htlen⟩ := execEncode_line h
  obtain ⟨n, hn⟩ := s.record.lineText_digit j hpos (by omega)
  cases h
  exact ⟨hexchar n, (overwrite_lineText s j (by omega)).trans hn, hexchar_code n⟩

/-- Settles O34: `ERR = 4` comes from the parser's `TRUNCATED`, whose position is `TLEN`. -/
theorem truncatedRecordsTlen : Obligations.TruncatedRecordsTlen := by
  intro s t h herr
  obtain ⟨p, -, rfl⟩ | ⟨e, he, rfl⟩ := execDecode_cases h
  · cases herr
  · rw [State.raiseDecodeError_errpos, State.parse_error_truncated he (ErrCode.eq_truncated_of_value herr),
      BitVec.ofNat_toNat, BitVec.setWidth_eq]

/-- Settles O37: the parser answers the same on both buffers, and `DECODE` reads the buffer through the parser alone. -/
theorem decodeReadsOnlyTheNeededCharacters : Obligations.DecodeReadsOnlyTheNeededCharacters :=
  fun _ _ _ hsame h => execDecode_withText (State.parse_withText hsame) h

end Sys2Proof.Machine
end

section
/-! PROOFS. Whole runs (60_exceptions.md R180, R186, R198; 70_reset_and_hazards.md R210, R223; 20_memory.md R71): what every
step keeps, which runs never stop, and the runs of `load_line` and `set_record` (30_encoding.md R86). -/

namespace Sys2Proof.Machine

/-! ### The status invariant -/

theorem State.inv_resetTo (d : ResetDraw) (p : Port) : (State.resetTo d p).Inv :=
  ⟨Nat.zero_le _, fun h => absurd rfl h, Nat.zero_le _⟩

/-- The invariant speaks of `STATUS` and `ERRPOS` alone. -/
theorem State.Inv.congr {s t : State} (hs : s.Inv) (hstatus : t.status = s.status) (herrpos : t.errpos = s.errpos) :
    t.Inv := by
  rwa [State.Inv, hstatus, herrpos]

/-- With `ERR = 0` only the bound on `ERRPOS` is left of the invariant. -/
theorem State.inv_of_ok {s : State} (herr : s.status.err = 0) (herrpos : s.errpos.toNat ≤ 520) : s.Inv :=
  ⟨by rw [herr]; exact Nat.zero_le _, fun h => absurd herr h, herrpos⟩

theorem ErrCode.value_le (c : ErrCode) : c.value.toNat ≤ 5 := by
  cases c <;> decide

/-- A failed parse reports a code below 6 and a position of at most 520 (41_transcoder.md R149), and sets `ESTKY`. -/
theorem State.inv_raiseDecodeError {s : State} {e : DecodeError} (h : s.parse = .error e) : (s.raiseDecodeError e).Inv := by
  have hpos := State.parse_error_pos h
  refine ⟨e.code.value_le, fun _ => rfl, ?_⟩
  rw [State.raiseDecodeError_errpos, BitVec.toNat_ofNat]
  omega

theorem exec_inv {i : Instr} {s t : State} (hs : s.Inv) (h : exec i s = .next t) : t.Inv := by
  obtain ⟨-, -, herrpos⟩ := hs
  cases i with
  | csumCalc => cases h; exact State.inv_of_ok rfl herrpos
  | csumCheck => cases h; exact State.inv_of_ok rfl herrpos
  | encode => cases h; exact State.inv_of_ok rfl herrpos
  | decode =>
    obtain ⟨p, -, rfl⟩ | ⟨e, he, rfl⟩ := execDecode_cases h
    · exact State.inv_of_ok rfl (Nat.zero_le _)
    · exact State.inv_raiseDecodeError he

/-- Every event at the port keeps the invariant; a reset makes it hold. -/
theorem Served.inv {e : PortEvent} {s t : State} (h : Served e s t) (hs : s.Inv) : t.Inv := by
  cases h with
  | reset _ ht => rw [ht]; exact State.inv_resetTo _ _
  | read r _ ht => rw [ht]; exact hs.congr rfl rfl
  | store r v _ _ ht =>
    obtain ⟨-, hstatus, herrpos, -⟩ := storeReg_frame r v s
    rw [ht]
    exact hs.congr hstatus herrpos
  | command v i _ _ ht => exact exec_inv (s := s.respond .writeDone) (hs.congr rfl rfl) ht
  | illegal v x _ _ ht =>
    obtain ⟨-, -, herrpos⟩ := hs
    rw [ht]
    exact ⟨ErrCode.illegalCmd.value_le, fun _ => rfl, herrpos⟩

/-! ### Runs -/

theorem run_of_next {n : Nat} {s t : State} (h : step s = .next t) : run (n + 1) s = run n t := by
  rw [run_succ, h]

/-- A host that makes only legal accesses is answered, and goes on making only legal accesses. -/
theorem step_of_onlyLegal {s : State} (h : s.OnlyLegal) : ∃ t, step s = .next t ∧ t.OnlyLegal := by
  cases hp : s.port.pending with
  | nil => exact ⟨s, step_idle hp, h⟩
  | cons e rest =>
    rw [State.OnlyLegal, hp, List.forall_mem_cons] at h
    obtain ⟨he, hrest⟩ := h
    obtain ⟨t, ht⟩ := serve_total he (s.accept rest)
    refine ⟨t, (step_pending hp).trans ht, ?_⟩
    rwa [State.OnlyLegal, serve_pending ht]

/-- The event at the head of the port is served in the same way whatever is still to arrive after it. -/
theorem step_withPending_cons (e : PortEvent) (es : List PortEvent) (s : State) :
    step (s.withPending (e :: es)) = serve e ((s.respond .none).withPending es) := rfl

/-- A store at the head of the port takes one step of a run. -/
theorem run_wr {r : WindowReg} (hr : r ≠ .cmd) (v : Word) (es : List PortEvent) (n : Nat) (s : State) :
    run (n + 1) (s.withPending (wr r v :: es)) = run n (((storeReg r v s).respond .writeDone).withPending es) := by
  have hstep := step_store hr v (s.withPending es)
  rw [show (storeReg r v (s.withPending es)).respond .writeDone = ((storeReg r v s).respond .writeDone).withPending es by
    cases r <;> rfl] at hstep
  exact run_of_next hstep

/-- The three header writes of `set_record` (30_encoding.md R86). -/
theorem run_setRecord_header (ll : Byte) (oooo : Half) (tt : Byte) (es : List PortEvent) (n : Nat) (s : State) :
    run (n + 3) (s.withPending ([wr .recLen (ll.setWidth 32), wr .recOffset (oooo.setWidth 32),
        wr .recType (tt.setWidth 32)] ++ es)) =
      run n (({ s with record := { s.record with len := ll, offset := oooo, type := tt } }.respond .writeDone).withPending
        es) := by
  have hbyte : ∀ b : Byte, (b.setWidth 32).setWidth 8 = b := fun b => by
    rw [BitVec.setWidth_setWidth_of_le _ (by decide), BitVec.setWidth_eq]
  have hhalf : (oooo.setWidth 32).setWidth 16 = oooo := by
    rw [BitVec.setWidth_setWidth_of_le _ (by decide), BitVec.setWidth_eq]
  simp only [List.cons_append, List.nil_append]
  rw [run_wr (r := .recLen) nofun, run_wr (r := .recOffset) nofun, run_wr (r := .recType) nofun]
  simp only [storeReg, hbyte, hhalf]
  rfl

/-! ### The statements -/

/-- Settles O42: an idle step changes nothing, and every event keeps the invariant (`Served.inv`). -/
theorem everyStepKeepsTheStatusInvariant : Obligations.EveryStepKeepsTheStatusInvariant := by
  intro s t hs h
  obtain ⟨-, rfl⟩ | ⟨e, rest, -, hserved⟩ := step_next h
  · exact hs
  · exact hserved.inv (hs.congr rfl rfl)

/-- Settles O48, by induction on the number of steps. -/
theorem legalAccessesNeverStopTheBlock : Obligations.LegalAccessesNeverStopTheBlock := by
  intro n
  induction n with
  | zero => exact fun s hs => ⟨s, rfl, hs⟩
  | succ n ih =>
    intro s hs
    obtain ⟨t, ht, hlegal⟩ := step_of_onlyLegal hs
    rw [run_of_next ht]
    exact ih t hlegal

/-- Settles O41: a reset leaves `STATUS` and `ERRPOS` 0, and `State.reset` is one reset. -/
theorem resetMeetsTheStatusInvariant : Obligations.ResetMeetsTheStatusInvariant :=
  ⟨State.inv_resetTo, State.inv_resetTo _ _⟩

/-- Settles O49, by induction on `xs`: each event is served in the same way before any rest (`serve_withPending`). -/
theorem transactionsArePerformedInArrivalOrder : Obligations.TransactionsArePerformedInArrivalOrder := by
  intro xs ys n s
  induction xs generalizing s with
  | nil => rw [List.length_nil, Nat.zero_add]; rfl
  | cons e xs ih =>
    rw [List.length_cons, Nat.add_right_comm, run_succ, run_succ, List.cons_append, step_withPending_cons,
      step_withPending_cons, serve_withPending, serve_withPending e _ xs]
    cases serve e (s.respond .none) with
    | next t => exact ih t
    | fault r => rfl
    | refused r => rfl

/-- Settles O53: the writes of the characters, and one of their number to `TLEN`. -/
theorem loadLineFillsTheLineBuffer : Obligations.LoadLineFillsTheLineBuffer := by
  intro s cs hcs
  obtain ⟨txt, rsp, hrun, htxt⟩ :=
    run_writeSlots_text cs 0 s [wr .tlen (BitVec.ofNat 32 cs.length)] 1 (by omega)
  have htlen := run_wr (r := .tlen) nofun (BitVec.ofNat 32 cs.length) [] 0 ({ s with text := txt }.respond rsp)
  have hlength : (loadLine cs).length = cs.length + 1 := by
    rw [loadLine, List.length_append, writeSlots_length, List.length_singleton]
  refine ⟨_, (congrArg (run · _) hlength).trans (hrun.trans htlen), fun j hj => (htxt j).trans (if_pos (by omega)),
    fun j hj => (htxt j).trans (if_neg (by omega)), ?_, rfl, rfl, rfl, rfl⟩
  show ((BitVec.ofNat 32 cs.length).setWidth 10).toNat = cs.length
  rw [BitVec.toNat_setWidth, BitVec.toNat_ofNat]
  omega

/-- Settles O54: three header writes, and the writes of the data bytes. -/
theorem setRecordFillsTheRecord : Obligations.SetRecordFillsTheRecord := by
  intro s ll oooo tt d hd
  obtain ⟨data, p, hrun, hdata⟩ := run_writeSlots_data d 0
    ({ s with record := { s.record with len := ll, offset := oooo, type := tt } }.respond .writeDone) (by omega)
  have hlength : (setRecord ll oooo tt d).length = d.length + 3 := by
    rw [setRecord, List.length_append, writeSlots_length, Nat.add_comm]
    rfl
  have hheader := run_setRecord_header ll oooo tt (writeSlots 0x400 0 d) d.length s
  exact ⟨_, (congrArg (run · _) hlength).trans (hheader.trans hrun), rfl, rfl, rfl, rfl,
    fun k hk => (hdata k).trans (if_pos (by omega)), fun k hk => (hdata k).trans (if_neg (by omega)),
    rfl, rfl, rfl, rfl, rfl⟩

end Sys2Proof.Machine
end

section
/-! PROOFS. Single transactions (20_memory.md R52 to R61, 70_reset_and_hazards.md R210): which accesses are answered, what a
read leaves alone, what a store does a second time, and the step that is a reset or has nothing to do. -/

namespace Sys2Proof.Machine

/-! ### Reads -/

/-- A register reads what it holds, whatever the port answered before. -/
@[simp] theorem readReg_respond (r : WindowReg) (q : PortResponse) (s : State) : readReg r (s.respond q) = readReg r s := by
  cases r <;> rfl

/-- All that a completed read at the port does. -/
theorem step_read_next {a : Offset} {w : AccessWidth} {s t : State} (h : step (s.facing (.memRead a w)) = .next t) :
    ∃ r, w = .four ∧ a = regOffset r ∧ t = s.respond (.readData (readReg r s)) := by
  obtain ⟨r, rfl, rfl, -⟩ := memRead_next h
  rw [step_read] at h
  cases h
  exact ⟨r, rfl, rfl, rfl⟩

/-! ### Stores -/

/-- A store does not read the register it writes, nor the port. -/
theorem storeReg_storeReg (r : WindowReg) (v : Word) (q : PortResponse) (s : State) :
    (storeReg r v ((storeReg r v s).respond q)).respond q = (storeReg r v s).respond q := by
  cases r with
  | data k => simp [storeReg, State.respond]
  | text j => simp [storeReg, State.respond]
  | _ => rfl

/-- All that a completed write past `CMD` does at the port. -/
theorem step_store_next {a : Offset} {w : AccessWidth} {v : Word} {s t : State} (ha : a ≠ regOffset .cmd)
    (h : step (s.facing (.memWrite a w v)) = .next t) :
    ∃ r, r ≠ .cmd ∧ w = .four ∧ a = regOffset r ∧ t = (storeReg r v s).respond .writeDone := by
  obtain ⟨-, hcmd, -⟩ | ⟨r, hr, rfl, rfl, -⟩ := memWrite_next h
  · exact absurd hcmd ha
  · rw [step_store hr] at h
    cases h
    exact ⟨r, hr, rfl, rfl, rfl⟩

/-! ### Every legal access is answered -/

/-- No command word touches the port. -/
theorem runCommand_port {v : Word} {s t : State} (h : runCommand v s = .next t) : t.port = s.port := by
  cases hv : decodeWord v with
  | ok i =>
    obtain rfl := eq_encode_of_decodeWord hv
    exact exec_port ((runCommand_encode i s).symm.trans h)
  | error x =>
    rw [runCommand_of_error hv] at h
    cases h
    rfl

/-- A write to any register is accepted (20_memory.md R57, R58). -/
theorem step_write_accepted (r : WindowReg) (v : Word) (s : State) :
    ∃ t, step (s.facing (.memWrite (regOffset r) .four v)) = .next t ∧ t.port = { s.port with response := .writeDone } := by
  by_cases hr : r = .cmd
  · subst hr
    obtain ⟨t, ht⟩ := runCommand_total v (s.respond .writeDone)
    exact ⟨t, (step_command v s).trans ht, runCommand_port ht⟩
  · obtain ⟨-, -, -, hport⟩ := storeReg_frame r v s
    exact ⟨_, step_store hr v s, by rw [State.respond_port, hport]⟩

/-! ### The statements -/

/-- Settles O6: every register is selected at its own offset, and what an access selects tells its offset and its width
(`selectReg_eq_some`). -/
theorem windowOffsetsSelectTheirRegisters : Obligations.WindowOffsetsSelectTheirRegisters := by
  refine ⟨selectReg_regOffset .cmd, selectReg_regOffset .status, selectReg_regOffset .errpos,
    selectReg_regOffset .csumResult, selectReg_regOffset .recLen, selectReg_regOffset .recOffset,
    selectReg_regOffset .recType, selectReg_regOffset .recCsum, selectReg_regOffset .tlen,
    fun k => selectReg_regOffset (.data k), fun j => selectReg_regOffset (.text j), fun a b w w' r ha hb => ?_⟩
  obtain ⟨hw, rfl⟩ := selectReg_eq_some.mp ha
  obtain ⟨-, rfl⟩ := selectReg_eq_some.mp hb
  exact ⟨rfl, hw⟩

/-- Settles O12: such an access is legal, so it reaches a register, which answers a read and accepts a write. -/
theorem legalAccessCompletes : Obligations.LegalAccessCompletes := by
  intro s a haligned hmapped
  have hlegal : legalAccess a .four = true := by
    rw [← Bool.not_eq_false, legalAccess_eq_false_iff, not_or]
    exact ⟨not_not_intro rfl, by omega⟩
  obtain ⟨r, -, rfl⟩ := selectReg_isSome hlegal
  exact ⟨⟨_, step_read r s⟩, fun v => step_write_accepted r v s⟩

/-- Settles O13: a read changes the port's answer alone, on which no register's value depends. -/
theorem readsHaveNoSideEffect : Obligations.ReadsHaveNoSideEffect := by
  intro s t a w h
  obtain ⟨r, rfl, rfl, rfl⟩ := step_read_next h
  refine ⟨⟨rfl, rfl, rfl, rfl, rfl, rfl⟩, rfl, rfl, ?_⟩
  rw [step_read, readReg_respond, State.respond_respond]

/-- Settles O14: a store writes the same value over its own result (`storeReg_storeReg`). -/
theorem storesAreIdempotent : Obligations.StoresAreIdempotent := by
  intro s t a w v ha h
  obtain ⟨r, hr, rfl, rfl, rfl⟩ := step_store_next ha h
  rw [step_store hr, storeReg_storeReg]

/-- Settles O8: the value of `Status.toWord` as a number, and its two flag bits. -/
theorem statusReadsItsFieldsInPlace : Obligations.StatusReadsItsFieldsInPlace := by
  intro s
  refine ⟨s.status.toWord, step_read .status s, ?_, s.status.toWord_flags⟩
  rw [Status.toWord_toNat]
  cases s.status.ckok <;> cases s.status.estky <;> rfl

/-- Settles O15: the reset event is `State.resetTo` at a draw of which nothing is used. -/
theorem resetClearsStatusAndResult : Obligations.ResetClearsStatusAndResult :=
  fun _ => ⟨_, rfl, rfl, rfl, rfl, rfl, rfl⟩

/-- Settles O16: each of the three registers reads the 0 that `State.resetTo` put there. -/
theorem statusReadsZeroAfterReset : Obligations.StatusReadsZeroAfterReset := by
  rintro d p a (rfl | rfl | rfl)
  · exact step_read .status _
  · exact step_read .errpos _
  · exact step_read .csumResult _

/-- Settles O17: `step_idle`. -/
theorem idleBlockKeepsItsState : Obligations.IdleBlockKeepsItsState :=
  fun _ => step_idle

end Sys2Proof.Machine
end

section
/-! PROOFS. The laws of the checksum (40_checksum.md R121 to R124, R128). -/

namespace Sys2Proof.Machine

/-- `csum()` reads the length, the offset, the type and the data bytes below the length (40_checksum.md R124). -/
theorem Record.checksum_congr {r r' : Record} (hlen : r'.len = r.len) (hoffset : r'.offset = r.offset)
    (htype : r'.type = r.type) (hdata : r'.dataBytes = r.dataBytes) : r'.checksum = r.checksum := by
  rw [Record.checksum, Record.sum8, hlen, hoffset, htype, hdata]
  rfl

/-- Both checksum commands put the computed checksum in `CSUM_RESULT` (40_checksum.md R125, R126). -/
theorem exec_csumResult_eq_checksum {i : Instr} {s t : State} (hi : i = .csumCalc ∨ i = .csumCheck)
    (h : exec i s = .next t) : t.csumResult = s.record.checksum := by
  rcases hi with rfl | rfl
  · cases h; rfl
  · cases h; rfl

/-- A wrapping accumulator, kept in 8 bits from its first addition on (40_checksum.md R122). -/
def Record.wrappingSum (r : Record) : Byte :=
  r.dataBytes.foldl (· + ·) (r.len + offsetHigh r.offset + offsetLow r.offset + r.type)

/-- It is the sum modulo 256 (40_checksum.md R122). -/
theorem Record.wrappingSum_toNat (r : Record) : r.wrappingSum.toNat = r.sum8 := by
  rw [Record.wrappingSum, foldl_add_toNat, Record.sum8]
  simp only [BitVec.toNat_add]
  omega

/-- `csum()` is the negation of the 8-bit sum (40_checksum.md R123). -/
theorem Record.checksum_eq_neg (r : Record) : r.checksum = -r.wrappingSum := by
  apply BitVec.eq_of_toNat_eq
  rw [Record.checksum_toNat, BitVec.toNat_neg, Record.wrappingSum_toNat]

/-! ### The statements -/

/-- Settles O20: `Record.checksum_unique` at the stored checksum. -/
theorem zeroSumMeansStoredChecksumIsComputed : Obligations.ZeroSumMeansStoredChecksumIsComputed :=
  fun r => r.checksum_unique r.csum

/-- Settles O21: the accumulator is `Record.wrappingSum`, and a negation is the complement plus one. -/
theorem wrappingAccumulatorGivesTheChecksum : Obligations.WrappingAccumulatorGivesTheChecksum := by
  intro r
  have hcomplement : ∀ acc : Byte, -acc = (acc ^^^ 0xFF) + 1 := fun acc => by
    rw [BitVec.neg_eq_not_add]
    exact congrArg (· + 1) BitVec.xor_allOnes.symm
  exact ⟨r.checksum_eq_neg, r.checksum_eq_neg.trans (hcomplement r.wrappingSum)⟩

/-- Settles O22: both commands compute `Record.checksum`, which reads the data bytes below the length alone. -/
theorem checksumIgnoresSlotsBeyondTheLength : Obligations.ChecksumIgnoresSlotsBeyondTheLength := by
  intro s s' t t' i hi hlen hoffset htype hdata h h'
  rw [exec_csumResult_eq_checksum hi h, exec_csumResult_eq_checksum hi h']
  exact Record.checksum_congr hlen hoffset htype (Record.dataBytes_congr hlen hdata)

/-- Settles O23: `CSUM_CALC` writes no field that the checksum reads, so a second one and a check find the same value. -/
theorem csumCalcIsStableAndChecksOut : Obligations.CsumCalcIsStableAndChecksOut := by
  intro s t h
  have hstored := exec_csumCalc_record h
  rw [exec_csumCheck_of_checksum hstored]
  cases h
  exact ⟨rfl, rfl⟩

end Sys2Proof.Machine
end

section
/-! PROOFS. What a command word reads and writes of the results (10_state.md R28, R33, R34; 90_conflicts.md C5): the writers of
`CKOK`, `ERRPOS` and `CSUM_RESULT`, and commands that read none of them. -/

namespace Sys2Proof.Machine

/-! ### The writers of the results -/

theorem exec_ckok {i : Instr} {s t : State} (hi : i ≠ .csumCheck) (h : exec i s = .next t) :
    t.status.ckok = s.status.ckok := by
  cases i with
  | csumCalc => cases h; rfl
  | csumCheck => exact absurd rfl hi
  | encode => cases h; rfl
  | decode => obtain ⟨p, -, rfl⟩ | ⟨e, -, rfl⟩ := execDecode_cases h <;> rfl

theorem exec_errpos {i : Instr} {s t : State} (hi : i ≠ .decode) (h : exec i s = .next t) : t.errpos = s.errpos := by
  cases i with
  | csumCalc => cases h; rfl
  | csumCheck => cases h; rfl
  | encode => cases h; rfl
  | decode => exact absurd rfl hi

theorem exec_csumResult {i : Instr} {s t : State} (hcalc : i ≠ .csumCalc) (hcheck : i ≠ .csumCheck)
    (h : exec i s = .next t) : t.csumResult = s.csumResult := by
  cases i with
  | csumCalc => exact absurd rfl hcalc
  | csumCheck => exact absurd rfl hcheck
  | encode => cases h; rfl
  | decode => obtain ⟨p, -, rfl⟩ | ⟨e, -, rfl⟩ := execDecode_cases h <;> rfl

/-- An event but a reset runs a command, or it keeps `CKOK`, `ERRPOS` and `CSUM_RESULT`. -/
theorem Served.command_or_keepsResults {e : PortEvent} {s t : State} (h : Served e s t) (he : e ≠ .reset) :
    (∃ i, e = .memWrite (regOffset .cmd) .four (encode i) ∧ exec i (s.respond .writeDone) = .next t) ∨
      (t.status.ckok = s.status.ckok ∧ t.errpos = s.errpos ∧ t.csumResult = s.csumResult) := by
  cases h with
  | reset hreset _ => exact absurd hreset he
  | read r _ ht => subst ht; exact .inr ⟨rfl, rfl, rfl⟩
  | store r v _ _ ht =>
    obtain ⟨hcsumResult, hstatus, herrpos, -⟩ := storeReg_frame r v s
    subst ht
    exact .inr ⟨congrArg Status.ckok hstatus, herrpos, hcsumResult⟩
  | command v i hcmd hi ht =>
    obtain rfl := eq_encode_of_decodeWord hi
    exact .inl ⟨i, hcmd, ht⟩
  | illegal v x _ _ ht => subst ht; exact .inr ⟨rfl, rfl, rfl⟩

/-! ### Commands read no result -/

/-- The block with other values in `STATUS`, `CSUM_RESULT` and `ERRPOS`. -/
def State.withResults (st : Status) (c : Byte) (p : BitVec 10) (s : State) : State :=
  { s with status := st, csumResult := c, errpos := p }

/-- What the command word `v` makes of those values, where it leaves `t` from the block without them: the results that `v`
does not write stand, and `ESTKY` is set with an error (60_exceptions.md R186). -/
def State.keepingResults (v : Word) (st : Status) (c : Byte) (p : BitVec 10) (t : State) : State :=
  { t with
    csumResult := if v = 1 ∨ v = 2 then t.csumResult else c
    errpos := if v = 4 then t.errpos else p
    status := { err := t.status.err, ckok := if v = 2 then t.status.ckok else st.ckok,
                estky := st.estky || t.status.err != 0 } }

/-- Every command overwrites a result or leaves it as it found it. -/
theorem exec_withResults {i : Instr} {s t : State} (h : exec i s = .next t) (st : Status) (c : Byte) (p : BitVec 10) :
    exec i (s.withResults st c p) = .next (t.keepingResults (encode i) st c p) := by
  obtain ⟨err, ckok, estky⟩ := st
  cases i with
  | csumCalc => cases h; cases estky <;> rfl
  | csumCheck => cases h; cases estky <;> rfl
  | encode => cases h; cases estky <;> rfl
  | decode =>
    have hparse : (s.withResults ⟨err, ckok, estky⟩ c p).parse = s.parse := rfl
    obtain ⟨r, hr, rfl⟩ | ⟨e, he, rfl⟩ := execDecode_cases h
    · refine (execDecode_of_ok (hparse.trans hr)).trans ?_
      cases estky <;> rfl
    · have hestky : (estky || e.code.value != 0) = true := by
        rw [bne_iff_ne.mpr (State.parse_error_value_ne_zero he), Bool.or_true]
      refine (execDecode_of_error (hparse.trans he)).trans ?_
      simp only [State.keepingResults, State.raiseDecodeError_status, Status.fail_err, hestky]
      rfl

theorem runCommand_withResults {v : Word} {s t : State} (h : runCommand v s = .next t) (st : Status) (c : Byte)
    (p : BitVec 10) : runCommand v (s.withResults st c p) = .next (t.keepingResults v st c p) := by
  cases hv : decodeWord v with
  | ok i =>
    obtain rfl := eq_encode_of_decodeWord hv
    rw [runCommand_encode] at h ⊢
    exact exec_withResults h st c p
  | error x =>
    have hne : ∀ i, v ≠ encode i := by
      rintro i rfl
      rw [decodeWord_encode] at hv
      cases hv
    rw [runCommand_of_error hv] at h ⊢
    cases h
    obtain ⟨err, ckok, estky⟩ := st
    have hcalc : v ≠ 1 := hne .csumCalc
    have hcheck : v ≠ 2 := hne .csumCheck
    have hdecode : v ≠ 4 := hne .decode
    simp only [State.keepingResults, hcalc, hcheck, hdecode, or_self, if_false]
    cases estky <;> rfl

/-! ### The statements -/

/-- Settles O44: `CSUM_CHECK` is the one command that writes `CKOK`. -/
theorem ckokIsWrittenOnlyByCsumCheck : Obligations.CkokIsWrittenOnlyByCsumCheck := by
  intro s t e hreset hcheck h
  have hserved : Served e (s.respond .none) t := serve_next h
  obtain ⟨i, rfl, hi⟩ | ⟨hckok, -, -⟩ := hserved.command_or_keepsResults hreset
  · have hne : i ≠ .csumCheck := by rintro rfl; exact hcheck rfl
    exact (exec_ckok hne hi :)
  · exact hckok

/-- Settles O45: `DECODE` is the one command that writes `ERRPOS`, and the checksum commands are the two that write
`CSUM_RESULT`. -/
theorem resultRegistersHaveTheirOwnWriters : Obligations.ResultRegistersHaveTheirOwnWriters := by
  intro s t e hreset h
  have hserved : Served e (s.respond .none) t := serve_next h
  obtain ⟨i, rfl, hi⟩ | ⟨-, herrpos, hcsumResult⟩ := hserved.command_or_keepsResults hreset
  · refine ⟨fun hdecode => ?_, fun hcalc hcheck => ?_⟩
    · have hne : i ≠ .decode := by rintro rfl; exact hdecode rfl
      exact (exec_errpos hne hi :)
    · have hneCalc : i ≠ .csumCalc := by rintro rfl; exact hcalc rfl
      have hneCheck : i ≠ .csumCheck := by rintro rfl; exact hcheck rfl
      exact (exec_csumResult hneCalc hneCheck hi :)
  · exact ⟨fun _ => herrpos, fun _ _ => hcsumResult⟩

/-- Settles O47: `runCommand_withResults`. -/
theorem commandsReadNoStatusOrResult : Obligations.CommandsReadNoStatusOrResult := by
  intro s t v st c p h
  rw [show (0x000 : Offset) = regOffset .cmd from rfl, step_command] at h ⊢
  exact runCommand_withResults h st c p

/-- Settles O4: a write to `CMD` is `runCommand`, and the word is its command's own. -/
theorem stepRunsTheDecodedCommand : Obligations.StepRunsTheDecodedCommand := by
  intro s v i rest hpending hi
  obtain rfl := eq_encode_of_decodeWord hi
  rw [step_pending hpending]
  exact (memWrite_cmd _ _).trans (runCommand_encode i _)

/-- Settles O5: the table's word stands first at the port, as a write to `CMD`. -/
theorem placedTableWordRunsNext : Obligations.PlacedTableWordRunsNext := by
  intro s nbits w i h
  have hword : decodeWord (tableWord nbits w) = .ok i := by
    unfold decodeTableWord at h
    split at h <;> cases h
    assumption
  rw [State.withFetchWord, State.writeCommandFirst, step_command, eq_encode_of_decodeWord hword, runCommand_encode]

end Sys2Proof.Machine
end

section
/-! PROOFS. The platform around the block (20_memory.md R51, R71, R72, R76; 60_exceptions.md R195): which block an access
reaches, what an event leaves of the others, and what may arrive at one port. -/

namespace Sys2Proof.Machine

/-! ### Blocks of a platform -/

/-- All that a step of block `k` does: it replaces that block, where there is one, by the state after its own step. -/
theorem Platform.stepAt_next {k : Nat} {blocks after : List State} (h : Platform.stepAt k blocks = .next after) :
    after = blocks ∨ ∃ s t, blocks[k]? = some s ∧ step s = .next t ∧ after = blocks.set k t := by
  unfold Platform.stepAt at h
  split at h
  · cases h; exact .inl rfl
  · rename_i s hs
    split at h
    · rename_i t ht; cases h; exact .inr ⟨s, t, hs, ht, rfl⟩
    · cases h
    · cases h

theorem Platform.stepAt_of_step {k : Nat} {blocks : List State} {s t : State} (hs : blocks[k]? = some s)
    (ht : step s = .next t) : Platform.stepAt k blocks = .next (blocks.set k t) := by
  simp only [Platform.stepAt, hs, ht]

/-- An access reaches the block that `Platform.locate` names, and no other. -/
theorem Platform.post_of_locate {P : Config.Platform} {adr k : Nat} {a : Offset} (mk : Offset → PortEvent)
    (blocks : List State) (h : Platform.locate P.ihxBases adr = some (k, a)) :
    Platform.post P adr mk blocks = blocks.modify k (State.arrive (mk a)) := by
  simp only [Platform.post, h]

theorem Platform.post_of_locate_none {P : Config.Platform} {adr : Nat} (mk : Offset → PortEvent)
    (blocks : List State) (h : Platform.locate P.ihxBases adr = none) : Platform.post P adr mk blocks = blocks := by
  simp only [Platform.post, h]

theorem arrive_elsewhere (e : PortEvent) (blocks : List State) {j k : Nat} (h : j ≠ k) :
    (blocks.modify k (State.arrive e))[j]? = blocks[j]? :=
  List.getElem?_modify_ne _ _ h.symm

/-! ### Numbers of blocks -/

theorem Platform.numbered_powerOn (n : Nat) : Platform.Numbered (Platform.powerOn n) := by
  intro k s h
  rw [Platform.powerOn, List.getElem?_map, Option.map_eq_some_iff] at h
  obtain ⟨j, hj, rfl⟩ := h
  obtain ⟨-, rfl⟩ := List.getElem?_eq_some_iff.mp hj
  exact List.getElem_range _

/-- Replacing a block by a state of the same number keeps the numbering. -/
theorem Platform.Numbered.set {blocks : List State} (hn : Platform.Numbered blocks) {k : Nat} {t : State}
    (ht : t.port.block = k) : Platform.Numbered (blocks.set k t) := by
  intro j s h
  rw [List.getElem?_set] at h
  split at h
  · rename_i hk
    split at h <;> cases h
    exact ht.trans hk
  · exact hn j s h

/-- An event that arrives at a block leaves its number alone. -/
theorem Platform.Numbered.arrive {blocks : List State} (hn : Platform.Numbered blocks) (k : Nat) (e : PortEvent) :
    Platform.Numbered (blocks.modify k (State.arrive e)) := by
  intro j s h
  rw [List.getElem?_modify, Option.map_eq_map, Option.map_eq_some_iff] at h
  obtain ⟨r, hr, rfl⟩ := h
  have hj := hn j r hr
  split
  · exact hj
  · exact hj

theorem Platform.Numbered.stepAt {blocks after : List State} (hn : Platform.Numbered blocks) {k : Nat}
    (h : Platform.stepAt k blocks = .next after) : Platform.Numbered after := by
  obtain rfl | ⟨s, t, hs, ht, rfl⟩ := Platform.stepAt_next h
  · exact hn
  · exact hn.set ((step_block ht).trans (hn k s hs))

theorem Platform.Numbered.post {blocks : List State} (hn : Platform.Numbered blocks) (P : Config.Platform) (adr : Nat)
    (mk : Offset → PortEvent) : Platform.Numbered (Platform.post P adr mk blocks) := by
  cases h : Platform.locate P.ihxBases adr with
  | none => rwa [Platform.post_of_locate_none mk blocks h]
  | some p =>
    obtain ⟨k, a⟩ := p
    rw [Platform.post_of_locate mk blocks h]
    exact hn.arrive k _

/-! ### Host addresses -/

/-- The first window of a list is taken where it holds the address, with the distance from its base as the offset. -/
theorem Platform.locate_cons_of_mem {b adr : Nat} (bases : List Nat) (h : b ≤ adr ∧ adr < b + Config.windowSize) :
    Platform.locate (b :: bases) adr = some (0, BitVec.ofNat 13 (adr - b)) :=
  if_pos h

theorem Platform.locate_cons_of_not_mem {b adr : Nat} (bases : List Nat) (h : ¬(b ≤ adr ∧ adr < b + Config.windowSize)) :
    Platform.locate (b :: bases) adr = (Platform.locate bases adr).map fun p => (p.1 + 1, p.2) :=
  if_neg h

/-- The address located is the base of its window plus the offset (20_memory.md R51). -/
theorem Platform.locate_some {bases : List Nat} {adr k : Nat} {a : Offset} (h : Platform.locate bases adr = some (k, a)) :
    ∃ b, bases[k]? = some b ∧ adr = b + a.toNat := by
  induction bases generalizing k with
  | nil => cases h
  | cons b bases ih =>
    by_cases hin : b ≤ adr ∧ adr < b + Config.windowSize
    · rw [Platform.locate_cons_of_mem bases hin] at h
      cases h
      refine ⟨b, rfl, ?_⟩
      rw [BitVec.toNat_ofNat]
      unfold Config.windowSize at hin
      omega
    · rw [Platform.locate_cons_of_not_mem bases hin, Option.map_eq_some_iff] at h
      obtain ⟨⟨j, a'⟩, hj, heq⟩ := h
      cases heq
      exact ih hj

/-- An address is located nowhere exactly where no window holds it. -/
theorem Platform.locate_eq_none {bases : List Nat} {adr : Nat} :
    Platform.locate bases adr = none ↔ ∀ b ∈ bases, ¬(b ≤ adr ∧ adr < b + Config.windowSize) := by
  induction bases with
  | nil => exact iff_of_true rfl nofun
  | cons b bases ih =>
    rw [List.forall_mem_cons]
    by_cases hin : b ≤ adr ∧ adr < b + Config.windowSize
    · rw [Platform.locate_cons_of_mem bases hin]
      exact iff_of_false nofun fun ⟨hout, _⟩ => hout hin
    · rw [Platform.locate_cons_of_not_mem bases hin, Option.map_eq_none_iff, ih]
      exact (and_iff_right hin).symm

/-! ### Arrival orders -/

/-- Taking the first event of one sequence takes that event from the whole, and nothing else. -/
theorem flatten_perm_cons_set {α : Type} {ls : List (List α)} {k : Nat} {e : α} {l : List α} (h : ls[k]? = some (e :: l)) :
    ls.flatten.Perm (e :: (ls.set k l).flatten) := by
  induction ls generalizing k with
  | nil => cases h
  | cons m ls ih =>
    cases k with
    | zero =>
      obtain rfl : m = e :: l := Option.some.inj h
      exact List.Perm.refl _
    | succ k => exact ((ih h).append_left m).trans List.perm_middle

/-- A merge of sequences holds all their events, each as often as they do (20_memory.md R76). -/
theorem Merge.perm {ls : List (List PortEvent)} {out : List PortEvent} (h : Merge ls out) : out.Perm ls.flatten := by
  induction h with
  | done hempty => rw [List.flatten_eq_nil_iff.mpr hempty]
  | take hk _ ih => exact (ih.cons _).trans (flatten_perm_cons_set hk).symm

/-- A merge keeps the order of every sequence (20_memory.md R76). -/
theorem Merge.sublist {ls : List (List PortEvent)} {out : List PortEvent} (h : Merge ls out) : ∀ m ∈ ls, m.Sublist out := by
  induction h with
  | done hempty => exact fun m hm => by rw [hempty m hm]
  | @take ls k e l out hk _ ih =>
    intro m hm
    obtain ⟨hlt, -⟩ := List.getElem?_eq_some_iff.mp hk
    obtain ⟨j, hj⟩ := List.mem_iff_getElem?.mp hm
    by_cases hjk : j = k
    · subst hjk
      obtain rfl : e :: l = m := Option.some.inj (hk.symm.trans hj)
      exact (ih l (List.mem_set hlt l)).cons_cons e
    · refine (ih m (List.mem_iff_getElem?.mpr ⟨j, ?_⟩)).cons e
      rwa [List.getElem?_set_ne (Ne.symm hjk)]

theorem Delivered.perm {ordered : Bool} {issued delivered : List PortEvent} (h : Delivered ordered issued delivered) :
    issued.Perm delivered := by
  cases ordered with
  | true => exact .of_eq h.symm
  | false => exact List.Perm.symm h

/-! ### The statements -/

/-- Settles O50: a step sets one place of the list of blocks, and an event arrives at one place. -/
theorem instancesAreIndependent : Obligations.InstancesAreIndependent := by
  refine ⟨fun k j blocks after h hj => ?_, fun P adr k a mk blocks j h hj => ?_, fun k j blocks hj => ?_⟩
  · obtain rfl | ⟨s, t, -, -, rfl⟩ := Platform.stepAt_next h
    · rfl
    · exact List.getElem?_set_ne hj.symm
  · rw [Platform.post_of_locate mk blocks h]
    exact arrive_elsewhere _ _ hj
  · exact arrive_elsewhere _ _ hj

/-- Settles O51, by induction on the list of windows. -/
theorem hostAddressIsBasePlusOffset : Obligations.HostAddressIsBasePlusOffset :=
  ⟨fun _ _ _ _ => Platform.locate_some, fun _ _ => Platform.locate_eq_none⟩

/-- Settles O52, by induction on the merge; with `HOST_ORDERED_PORT` the sequences merged are the programs themselves. -/
theorem arrivalKeepsEachAgentsOrder : Obligations.ArrivalKeepsEachAgentsOrder := by
  rintro P programs arrived ⟨delivered, hdelivered, hmerge⟩
  refine ⟨hmerge.perm.trans ?_, fun hordered => ?_⟩
  · exact (List.Perm.flatten_congr (hdelivered.imp fun _ _ => Delivered.perm)).symm
  · have hsame : programs = delivered := by
      rw [← List.forall₂_eq_eq_eq]
      rw [hordered] at hdelivered
      exact hdelivered.imp fun _ _ h => Eq.symm h
    rw [hsame]
    exact hmerge.sublist

/-- Settles O55: every event keeps the number of its block, and a reset draws by that number. -/
theorem instancesDrawByTheirOwnNumbers : Obligations.InstancesDrawByTheirOwnNumbers := by
  refine ⟨Platform.numbered_powerOn, fun k blocks after hn h => hn.stepAt h, fun P adr mk blocks hn => hn.post P adr mk,
    fun k blocks hn => hn.arrive k .reset, fun k blocks s rest hn hs hpending => ?_⟩
  refine ⟨_, Platform.stepAt_of_step hs (step_pending hpending), ?_⟩
  rw [← hn k s hs]
  exact ⟨rfl, rfl, rfl⟩

end Sys2Proof.Machine
end
